-- ==== Sys2Proof/Word.lean ====
section
/-! DEFINITION. The two word types of the machine (spec 00_scope.md R5, R7): a byte is 8 bits, a word is 16 bits. -/

namespace Sys2Proof

/-- One byte: the unit of memory and of the instruction stream (R7, R30). -/
abbrev Byte := BitVec 8

/-- One 16-bit word: a register cell, an address held in an instruction, an immediate (R5, R10). -/
abbrev Word := BitVec 16

end Sys2Proof
end

