-- ==== Sys2Proof/Config.lean ====
section
/-! DEFINITION. The one parameter the spec leaves open, WIRED, as a choice within its bounds (spec 00_scope.md R6, 44_jumps.md R161),
and the `hlt` opcode that the loader writes. The fixed parameters of R5 stand where they are used: 16-bit cells and addresses,
the top address 65535, the longest instruction of 6 bytes. -/

namespace Sys2Proof

/-- The `hlt` opcode, which is also the loader's sentinel byte (R68, R290). -/
abbrev hltOpcode : Byte := 0xF4#8

/-- A choice of WIRED within R161's bounds, one bit for each operation that may be in it or not.
`Loop` is always wired and the twelve jumps that need carry, overflow or parity never are, so neither has a bit:
the bounds hold by construction. -/
structure Wired where
  je : Bool
  jne : Bool
  js : Bool
  jns : Bool
  jcxz : Bool
  loopz : Bool
  loopnz : Bool
deriving DecidableEq, Repr

end Sys2Proof
end

