-- ==== Sys2Proof/Syntax.lean ====
section
/-! DEFINITION. The decoded record of the spec (30_encoding.md R51 to R56): operands, flags, size, and one constructor of
`Instr` per operation tag, that is per row of spec/opcode_table.json. -/

namespace Sys2Proof

/-- The eight 16-bit cells, in the order of their numbers 0 to 7 (10_state.md R10). -/
inductive RegCell where
  | ax | cx | dx | bx | sp | bp | si | di
deriving DecidableEq, Repr

/-- How a cell is viewed: its low byte, its high byte, or whole (R11). -/
inductive Access where
  | low | high | full
deriving DecidableEq, Repr

/-- The eight fixed bases of a calculated address, in the order of the r/m values 000 to 111 (R54, 40_operands.md R93). -/
inductive Base where
  | bxSi | bxDi | bpSi | bpDi | si | di | bp | bx
deriving DecidableEq, Repr

/-- The two kinds of memory reference (R54); the displacement is a 16-bit container for a two's-complement value. -/
inductive EffectiveAddress where
  | direct (address : Word)
  | calculated (base : Base) (displacement : Word)
deriving DecidableEq, Repr

/-- An operand (R53). `labelOffset` holds the second instruction byte, read as a signed 8-bit integer. -/
inductive Operand where
  | register (cell : RegCell) (access : Access)
  | memory (ea : EffectiveAddress)
  | immediateData (value : Word)
  | labelOffset (offset : Byte)
deriving DecidableEq, Repr

/-- The decode-time bits of an instruction (R55); they are no machine state (10_state.md R18). -/
structure InstructionFlags where
  wide : Bool
  dir : Bool
  sext : Bool
deriving DecidableEq, Repr

/-- Everything of R51's record but the operation: slot 0 (`dst`) is the destination or only operand, slot 1 (`src`) the
source, an unused slot is absent; `size` is the number of bytes consumed. -/
structure Fields where
  dst : Option Operand
  src : Option Operand
  flags : InstructionFlags
  size : Nat
deriving DecidableEq, Repr

/-- R56's closed enumeration of operations. -/
inductive OperationTag where
  | movRmReg | movImmRm | movImmReg | movMemToAcc | movAccToMem
  | addRmReg | addImmRm | addImmAcc
  | subRmReg | subImmRm | subImmAcc
  | cmpRmReg | cmpImmRm | cmpImmAcc
  | jo | jno | jb | jnb | je | jne | jbe | ja | js | jns | jp | jnp | jl | jnl | jle | jg
  | loopnz | loopz | loop | jcxz
  | hlt
deriving DecidableEq, Repr

/-- The decoded instruction (R51): the constructor is the operation tag, the argument the rest of the record. A record built
by hand may hold operands that no encoding gives; executing it is OperandFault (40_operands.md R101). -/
inductive Instr where
  | movRmReg (f : Fields) | movImmRm (f : Fields) | movImmReg (f : Fields)
  | movMemToAcc (f : Fields) | movAccToMem (f : Fields)
  | addRmReg (f : Fields) | addImmRm (f : Fields) | addImmAcc (f : Fields)
  | subRmReg (f : Fields) | subImmRm (f : Fields) | subImmAcc (f : Fields)
  | cmpRmReg (f : Fields) | cmpImmRm (f : Fields) | cmpImmAcc (f : Fields)
  | jo (f : Fields) | jno (f : Fields) | jb (f : Fields) | jnb (f : Fields)
  | je (f : Fields) | jne (f : Fields) | jbe (f : Fields) | ja (f : Fields)
  | js (f : Fields) | jns (f : Fields) | jp (f : Fields) | jnp (f : Fields)
  | jl (f : Fields) | jnl (f : Fields) | jle (f : Fields) | jg (f : Fields)
  | loopnz (f : Fields) | loopz (f : Fields) | loop (f : Fields) | jcxz (f : Fields)
  | hlt (f : Fields)
deriving DecidableEq, Repr

/-- The eight formats of R52. -/
inductive Format where
  | rmReg | immRm | movImmRm | immReg | immAcc | memAcc | rel8 | none
deriving DecidableEq, Repr

/-- The operation field of the record (R51). -/
def Instr.operation : Instr → OperationTag
  | .movRmReg _ => .movRmReg | .movImmRm _ => .movImmRm | .movImmReg _ => .movImmReg
  | .movMemToAcc _ => .movMemToAcc | .movAccToMem _ => .movAccToMem
  | .addRmReg _ => .addRmReg | .addImmRm _ => .addImmRm | .addImmAcc _ => .addImmAcc
  | .subRmReg _ => .subRmReg | .subImmRm _ => .subImmRm | .subImmAcc _ => .subImmAcc
  | .cmpRmReg _ => .cmpRmReg | .cmpImmRm _ => .cmpImmRm | .cmpImmAcc _ => .cmpImmAcc
  | .jo _ => .jo | .jno _ => .jno | .jb _ => .jb | .jnb _ => .jnb
  | .je _ => .je | .jne _ => .jne | .jbe _ => .jbe | .ja _ => .ja
  | .js _ => .js | .jns _ => .jns | .jp _ => .jp | .jnp _ => .jnp
  | .jl _ => .jl | .jnl _ => .jnl | .jle _ => .jle | .jg _ => .jg
  | .loopnz _ => .loopnz | .loopz _ => .loopz | .loop _ => .loop | .jcxz _ => .jcxz
  | .hlt _ => .hlt

/-- The rest of the record (R51). -/
def Instr.fields : Instr → Fields
  | .movRmReg f | .movImmRm f | .movImmReg f | .movMemToAcc f | .movAccToMem f
  | .addRmReg f | .addImmRm f | .addImmAcc f
  | .subRmReg f | .subImmRm f | .subImmAcc f
  | .cmpRmReg f | .cmpImmRm f | .cmpImmAcc f
  | .jo f | .jno f | .jb f | .jnb f | .je f | .jne f | .jbe f | .ja f
  | .js f | .jns f | .jp f | .jnp f | .jl f | .jnl f | .jle f | .jg f
  | .loopnz f | .loopz f | .loop f | .jcxz f | .hlt f => f

/-- The record with the given operation and fields: R76's `Ins(tag, ops, flags, size)`. -/
def Instr.ofTag : OperationTag → Fields → Instr
  | .movRmReg, f => .movRmReg f | .movImmRm, f => .movImmRm f | .movImmReg, f => .movImmReg f
  | .movMemToAcc, f => .movMemToAcc f | .movAccToMem, f => .movAccToMem f
  | .addRmReg, f => .addRmReg f | .addImmRm, f => .addImmRm f | .addImmAcc, f => .addImmAcc f
  | .subRmReg, f => .subRmReg f | .subImmRm, f => .subImmRm f | .subImmAcc, f => .subImmAcc f
  | .cmpRmReg, f => .cmpRmReg f | .cmpImmRm, f => .cmpImmRm f | .cmpImmAcc, f => .cmpImmAcc f
  | .jo, f => .jo f | .jno, f => .jno f | .jb, f => .jb f | .jnb, f => .jnb f
  | .je, f => .je f | .jne, f => .jne f | .jbe, f => .jbe f | .ja, f => .ja f
  | .js, f => .js f | .jns, f => .jns f | .jp, f => .jp f | .jnp, f => .jnp f
  | .jl, f => .jl f | .jnl, f => .jnl f | .jle, f => .jle f | .jg, f => .jg f
  | .loopnz, f => .loopnz f | .loopz, f => .loopz f | .loop, f => .loop f | .jcxz, f => .jcxz f
  | .hlt, f => .hlt f

/-- The number of bytes the record says it consumed (R51). -/
def Instr.size (i : Instr) : Nat := i.fields.size

/-- The format of each operation (R69). -/
def OperationTag.format : OperationTag → Format
  | .movRmReg | .addRmReg | .subRmReg | .cmpRmReg => .rmReg
  | .addImmRm | .subImmRm | .cmpImmRm => .immRm
  | .movImmRm => .movImmRm
  | .movImmReg => .immReg
  | .addImmAcc | .subImmAcc | .cmpImmAcc => .immAcc
  | .movMemToAcc | .movAccToMem => .memAcc
  | .jo | .jno | .jb | .jnb | .je | .jne | .jbe | .ja
  | .js | .jns | .jp | .jnp | .jl | .jnl | .jle | .jg
  | .loopnz | .loopz | .loop | .jcxz => .rel8
  | .hlt => .none

end Sys2Proof
end

