-- ==== Sys2Proof/Machine/Bits.lean ====
section
/-! DEFINITION. Bit fields, byte order and extension (spec 00_scope.md R7, R8, 20_memory.md R32, 30_encoding.md R58, R60),
the helpers that the decoder, the encoder and the operations share. -/

namespace Sys2Proof.Machine

/-- Bits 7:0 of a word. -/
def loByte (w : Word) : Byte := w.extractLsb' 0 8

/-- Bits 15:8 of a word. -/
def hiByte (w : Word) : Byte := w.extractLsb' 8 8

/-- `hi ++ lo`: the word whose more significant byte is `hi` (R7, R32). -/
def wordOf (hi lo : Byte) : Word := hi ++ lo

/-- `zext_16` of a byte (R8). -/
def zextByte (b : Byte) : Word := b.setWidth 16

/-- `sext_16` of a byte (R8). -/
def sextByte (b : Byte) : Word := b.signExtend 16

/-- The mode/reg/r-m byte from its three fields, bits 7:6, 5:3 and 2:0 (R58). -/
def modRmByte (md : BitVec 2) (reg rm : BitVec 3) : Byte := md ++ reg ++ rm

/-- The three fields of a mode/reg/r-m byte (R58). -/
def modField (m : Byte) : BitVec 2 := m.extractLsb' 6 2
def regField (m : Byte) : BitVec 3 := m.extractLsb' 3 3
def rmField (m : Byte) : BitVec 3 := m.extractLsb' 0 3

/-- The number of a cell (10_state.md R10). -/
def cellCode : RegCell → BitVec 3
  | .ax => 0 | .cx => 1 | .dx => 2 | .bx => 3 | .sp => 4 | .bp => 5 | .si => 6 | .di => 7

/-- The cell of a number (10_state.md R10). -/
def cellOf (n : BitVec 3) : RegCell :=
  match n.toNat with
  | 0 => .ax | 1 => .cx | 2 => .dx | 3 => .bx | 4 => .sp | 5 => .bp | 6 => .si | _ => .di

/-- The r/m value of a base (40_operands.md R93). -/
def baseCode : Base → BitVec 3
  | .bxSi => 0 | .bxDi => 1 | .bpSi => 2 | .bpDi => 3 | .si => 4 | .di => 5 | .bp => 6 | .bx => 7

/-- The base of an r/m value (40_operands.md R93). -/
def baseOf (n : BitVec 3) : Base :=
  match n.toNat with
  | 0 => .bxSi | 1 => .bxDi | 2 => .bpSi | 3 => .bpDi | 4 => .si | 5 => .di | 6 => .bp | _ => .bx

/-- Which cells have byte views: cells 0 to 3 (10_state.md R11). -/
def byteAddressable : RegCell → Bool
  | .ax | .cx | .dx | .bx => true
  | .sp | .bp | .si | .di => false

/-- The accumulator operand: `Register(0, Full)` when wide, else `Register(0, Low)` (R52). -/
def accumulator (wide : Bool) : Operand := .register .ax (if wide then .full else .low)

/-- `RegOperand(f, w)` (R60): wide gives cell `f`, whole; narrow gives cell `f mod 4`, Low for `f < 4` and High otherwise. -/
def regOperand (f : BitVec 3) (wide : Bool) : Operand :=
  if wide then .register (cellOf f) .full
  else if f.toNat < 4 then .register (cellOf f) .low
  else .register (cellOf (f - 4)) .high

/-- The register field that names a Register operand: R60 read backwards. -/
def regCode (c : RegCell) : Access → BitVec 3
  | .full => cellCode c
  | .low => cellCode c
  | .high => cellCode c + 4

/-- `width(a)` is 16 for Full and 8 otherwise (R8); as a truth value, whether the access is wide. -/
def accessWide : Access → Bool
  | .full => true
  | .low | .high => false

end Sys2Proof.Machine
end

