-- ==== Sys2Proof/WellFormed.lean ====
section
/-! DEFINITION. Which decoded records an encoding gives: the operand shapes, flag values and sizes of R52's format table
(30_encoding.md R52, R58, R59, R60). Everything else is a hand-built record. -/

namespace Sys2Proof

open Sys2Proof.Machine

/-- A Register operand some register field of the given width names (R60). -/
def wfRegister (wide : Bool) : Operand → Bool
  | .register c a => if wide then a == .full else a != .full && byteAddressable c
  | _ => false

/-- An r/m operand with `nd` displacement bytes (R58's table). -/
def wfRm (wide : Bool) (nd : Nat) : Operand → Bool
  | .register c a => wfRegister wide (.register c a) && nd == 0
  | .memory (.direct _) => nd == 2
  | .memory (.calculated b d) =>
      (nd == 0 && b != .bp && d == 0) || (nd == 1 && d == sextByte (loByte d)) || nd == 2
  | _ => false

/-- The number of immediate bytes (R59). -/
def immediateBytes (wide sext : Bool) : Nat := if wide && !sext then 2 else 1

/-- An immediate value that R59's table can give. -/
def wfImmediate (wide sext : Bool) : Operand → Bool
  | .immediateData v =>
      if wide then !sext || v == sextByte (loByte v) else v == zextByte (loByte v)
  | _ => false

/-- The displacement length that the size leaves in a format with a mode byte and `ni` immediate bytes (R74). -/
def displacementBytes (f : Fields) (ni : Nat) : Nat := f.size - 2 - ni

/-- R52's row of a format, as a check on the record. -/
def wfFields : Format → Fields → Bool
  | .rmReg, ⟨some d, some s, fl, n⟩ =>
      let nd := displacementBytes ⟨some d, some s, fl, n⟩ 0
      !fl.sext && n == 2 + nd &&
        (if fl.dir then wfRegister fl.wide d && wfRm fl.wide nd s
         else wfRm fl.wide nd d && wfRegister fl.wide s)
  | .immRm, ⟨some d, some s, fl, n⟩ =>
      let ni := immediateBytes fl.wide fl.sext
      let nd := displacementBytes ⟨some d, some s, fl, n⟩ ni
      !fl.dir && n == 2 + nd + ni && wfRm fl.wide nd d && wfImmediate fl.wide fl.sext s
  | .movImmRm, ⟨some d, some s, fl, n⟩ =>
      let ni := immediateBytes fl.wide false
      let nd := displacementBytes ⟨some d, some s, fl, n⟩ ni
      !fl.dir && !fl.sext && n == 2 + nd + ni && wfRm fl.wide nd d && wfImmediate fl.wide false s
  | .immReg, ⟨some d, some s, fl, n⟩ =>
      fl.dir && !fl.sext && n == 1 + immediateBytes fl.wide false &&
        wfRegister fl.wide d && wfImmediate fl.wide false s
  | .immAcc, ⟨some d, some s, fl, n⟩ =>
      fl.dir && !fl.sext && n == 1 + immediateBytes fl.wide false &&
        d == accumulator fl.wide && wfImmediate fl.wide false s
  | .memAcc, ⟨some d, some s, fl, n⟩ =>
      !fl.sext && n == 3 &&
        match fl.dir, d, s with
        | true, d, .memory (.direct _) => d == accumulator fl.wide
        | false, .memory (.direct _), s => s == accumulator fl.wide
        | _, _, _ => false
  | .rel8, ⟨some (.labelOffset _), none, fl, n⟩ => !fl.wide && !fl.dir && !fl.sext && n == 2
  | .none, ⟨none, none, fl, n⟩ => !fl.wide && !fl.dir && !fl.sext && n == 1
  | _, _ => false

/-- The two accumulator moves share a format and differ in the direction (R66). -/
def wfDirection : OperationTag → Fields → Bool
  | .movMemToAcc, f => f.flags.dir
  | .movAccToMem, f => !f.flags.dir
  | _, _ => true

/-- The check a record must pass to be the decoding of some bytes. -/
def Instr.wf (i : Instr) : Bool :=
  wfFields i.operation.format i.fields && wfDirection i.operation i.fields

/-- A record that some encoding gives. -/
abbrev WellFormed (i : Instr) : Prop := i.wf = true

end Sys2Proof
end

