-- ==== Sys2Proof/Decode.lean ====
section
/-! DEFINITION. The decoder, total on any bytes (spec 30_encoding.md R50 to R76), and after it the encoder, written from the
same format table and opcode map (R52, R69). `none` is R50's None: a sequence that no class matches or that is cut short. -/

namespace Sys2Proof

open Sys2Proof.Machine

/-! ### The opcode map (R69) -/

/-- The 6-bit class's register/memory and register forms: bits 7:2 of byte 0 (R61, R69). -/
def rmRegTag (top : BitVec 6) : Option OperationTag :=
  if top = 0b100010#6 then some .movRmReg
  else if top = 0b000000#6 then some .addRmReg
  else if top = 0b001010#6 then some .subRmReg
  else if top = 0b001110#6 then some .cmpRmReg
  else none

/-- The sub-dispatch field of `100000sw` (R62). -/
def immRmTag (sub : BitVec 3) : Option OperationTag :=
  if sub = 0b000#3 then some .addImmRm
  else if sub = 0b101#3 then some .subImmRm
  else if sub = 0b111#3 then some .cmpImmRm
  else none

/-- The 7-bit class's immediate to accumulator forms: bits 7:1 of byte 0 (R65). -/
def immAccTag (top : BitVec 7) : Option OperationTag :=
  if top = 0b0000010#7 then some .addImmAcc
  else if top = 0b0010110#7 then some .subImmAcc
  else if top = 0b0011110#7 then some .cmpImmAcc
  else none

/-- The exact 8-bit matches with an offset byte: jumps, loops and `jcxz` (R67, R69). -/
def rel8Tag (b : Byte) : Option OperationTag :=
  match b.toNat with
  | 0x70 => some .jo | 0x71 => some .jno | 0x72 => some .jb | 0x73 => some .jnb
  | 0x74 => some .je | 0x75 => some .jne | 0x76 => some .jbe | 0x77 => some .ja
  | 0x78 => some .js | 0x79 => some .jns | 0x7A => some .jp | 0x7B => some .jnp
  | 0x7C => some .jl | 0x7D => some .jnl | 0x7E => some .jle | 0x7F => some .jg
  | 0xE0 => some .loopnz | 0xE1 => some .loopz | 0xE2 => some .loop | 0xE3 => some .jcxz
  | _ => none

/-! ### The parts of an instruction (R76's `byte`, `ModRM` and `Imm`) -/

/-- `byte(k)`: the byte `k` places into the window, or a failed decode where the window is too short (R72). -/
def byteAt (window : List Byte) (k : Nat) : Option Byte := window[k]?

/-- R76's `ModRM(k, w)`: the `reg` field, the r/m operand and the displacement length (R58, R90 to R93). -/
def decodeModRm (window : List Byte) (k : Nat) (wide : Bool) : Option (BitVec 3 × Operand × Nat) := do
  let m ← byteAt window k
  let reg := regField m
  let rm := rmField m
  if modField m = 0b11#2 then
    return (reg, regOperand rm wide, 0)
  else if modField m = 0b00#2 ∧ rm = 0b110#3 then
    let lo ← byteAt window (k + 1)
    let hi ← byteAt window (k + 2)
    return (reg, .memory (.direct (wordOf hi lo)), 2)
  else if modField m = 0b00#2 then
    return (reg, .memory (.calculated (baseOf rm) 0), 0)
  else if modField m = 0b01#2 then
    let lo ← byteAt window (k + 1)
    return (reg, .memory (.calculated (baseOf rm) (sextByte lo)), 1)
  else
    let lo ← byteAt window (k + 1)
    let hi ← byteAt window (k + 2)
    return (reg, .memory (.calculated (baseOf rm) (wordOf hi lo)), 2)

/-- R76's `Imm(k, w, s)`: the extended immediate and its length (R59). -/
def decodeImm (window : List Byte) (k : Nat) (wide sext : Bool) : Option (Word × Nat) := do
  let lo ← byteAt window k
  if wide && !sext then
    let hi ← byteAt window (k + 1)
    return (wordOf hi lo, 2)
  else if wide then
    return (sextByte lo, 1)
  else
    return (zextByte lo, 1)

/-! ### The formats -/

/-- F-RM-REG (R61): `oooooo d w`, `mod reg r/m`, displacement. -/
def decodeRmReg (tag : OperationTag) (b0 : Byte) (window : List Byte) : Option Instr := do
  let wide := b0.getLsbD 0
  let dir := b0.getLsbD 1
  let (reg, m, nd) ← decodeModRm window 1 wide
  let r := regOperand reg wide
  let fl : InstructionFlags := ⟨wide, dir, false⟩
  if dir then return .ofTag tag ⟨some r, some m, fl, 2 + nd⟩
  else return .ofTag tag ⟨some m, some r, fl, 2 + nd⟩

/-- F-IMM-RM (R62): `100000 s w`, `mod ooo r/m`, displacement, immediate. -/
def decodeImmRm (b0 : Byte) (window : List Byte) : Option Instr := do
  let wide := b0.getLsbD 0
  let sext := b0.getLsbD 1
  let (reg, m, nd) ← decodeModRm window 1 wide
  let tag ← immRmTag reg
  let (v, ni) ← decodeImm window (2 + nd) wide sext
  return .ofTag tag ⟨some m, some (.immediateData v), ⟨wide, false, sext⟩, 2 + nd + ni⟩

/-- F-MOV-IMM-RM (R63): `1100011 w`, `mod 000 r/m`, displacement, immediate. -/
def decodeMovImmRm (b0 : Byte) (window : List Byte) : Option Instr := do
  let wide := b0.getLsbD 0
  let (reg, m, nd) ← decodeModRm window 1 wide
  if reg = 0b000#3 then
    let (v, ni) ← decodeImm window (2 + nd) wide false
    return .ofTag .movImmRm ⟨some m, some (.immediateData v), ⟨wide, false, false⟩, 2 + nd + ni⟩
  else none

/-- F-IMM-REG (R64): `1011 w reg`, immediate. -/
def decodeImmReg (b0 : Byte) (window : List Byte) : Option Instr := do
  let wide := b0.getLsbD 3
  let (v, ni) ← decodeImm window 1 wide false
  return .ofTag .movImmReg
    ⟨some (regOperand (b0.extractLsb' 0 3) wide), some (.immediateData v), ⟨wide, true, false⟩, 1 + ni⟩

/-- F-IMM-ACC (R65): `ooooooo w`, immediate. -/
def decodeImmAcc (tag : OperationTag) (b0 : Byte) (window : List Byte) : Option Instr := do
  let wide := b0.getLsbD 0
  let (v, ni) ← decodeImm window 1 wide false
  return .ofTag tag ⟨some (accumulator wide), some (.immediateData v), ⟨wide, true, false⟩, 1 + ni⟩

/-- F-MEM-ACC (R66): `101000 t w`, two address bytes whatever `w` is. -/
def decodeMemAcc (b0 : Byte) (window : List Byte) : Option Instr := do
  let wide := b0.getLsbD 0
  let lo ← byteAt window 1
  let hi ← byteAt window 2
  let mem := Operand.memory (.direct (wordOf hi lo))
  if b0.getLsbD 1 then
    return .ofTag .movAccToMem ⟨some mem, some (accumulator wide), ⟨wide, false, false⟩, 3⟩
  else
    return .ofTag .movMemToAcc ⟨some (accumulator wide), some mem, ⟨wide, true, false⟩, 3⟩

/-- F-REL8 (R67): an exact opcode and a signed offset. -/
def decodeRel8 (tag : OperationTag) (window : List Byte) : Option Instr := do
  let k ← byteAt window 1
  return .ofTag tag ⟨some (.labelOffset k), none, ⟨false, false, false⟩, 2⟩

/-- R57's class order on byte 0: the 4-bit class, the 6-bit class, the 7-bit class, then the exact matches. -/
def decodeFrom (b0 : Byte) (window : List Byte) : Option Instr :=
  if b0.extractLsb' 4 4 = 0b1011#4 then decodeImmReg b0 window
  else match rmRegTag (b0.extractLsb' 2 6) with
  | some tag => decodeRmReg tag b0 window
  | none =>
  if b0.extractLsb' 2 6 = 0b100000#6 then decodeImmRm b0 window
  else match immAccTag (b0.extractLsb' 1 7) with
  | some tag => decodeImmAcc tag b0 window
  | none =>
  if b0.extractLsb' 2 6 = 0b101000#6 then decodeMemAcc b0 window
  else if b0.extractLsb' 1 7 = 0b1100011#7 then decodeMovImmRm b0 window
  else match rel8Tag b0 with
  | some tag => decodeRel8 tag window
  | none =>
  if b0 = hltOpcode then some (.ofTag .hlt ⟨none, none, ⟨false, false, false⟩, 1⟩)
  else none

/-- The whole decoder on a window: the bytes from the decode offset on (R76). -/
def decode (window : List Byte) : Option Instr :=
  match window with
  | [] => none
  | b0 :: rest => decodeFrom b0 (b0 :: rest)

/-- `Decode(B, L, o)`: the decoder at an offset of a byte sequence (R50, 48_interfaces.md R241). -/
def decodeAt (bytes : List Byte) (offset : Nat) : Option Instr := decode (bytes.drop offset)

/-! ### The encoder -/

/-- Byte 0 with its `d`/`s`, `w` and register bits zero (R69). -/
def opcodeBase : OperationTag → Byte
  | .movRmReg => 0x88 | .addRmReg => 0x00 | .subRmReg => 0x28 | .cmpRmReg => 0x38
  | .addImmRm | .subImmRm | .cmpImmRm => 0x80
  | .movImmRm => 0xC6 | .movImmReg => 0xB0
  | .addImmAcc => 0x04 | .subImmAcc => 0x2C | .cmpImmAcc => 0x3C
  | .movMemToAcc => 0xA0 | .movAccToMem => 0xA2
  | .jo => 0x70 | .jno => 0x71 | .jb => 0x72 | .jnb => 0x73
  | .je => 0x74 | .jne => 0x75 | .jbe => 0x76 | .ja => 0x77
  | .js => 0x78 | .jns => 0x79 | .jp => 0x7A | .jnp => 0x7B
  | .jl => 0x7C | .jnl => 0x7D | .jle => 0x7E | .jg => 0x7F
  | .loopnz => 0xE0 | .loopz => 0xE1 | .loop => 0xE2 | .jcxz => 0xE3
  | .hlt => hltOpcode

/-- The sub-dispatch field of the immediate to register/memory forms (R62, R63). -/
def subDispatch : OperationTag → BitVec 3
  | .subImmRm => 0b101
  | .cmpImmRm => 0b111
  | _ => 0b000

/-- A truth value as one bit at position `k` of a byte. -/
def bitAt (b : Bool) (k : Nat) : Byte := (if b then 1#8 else 0#8) <<< k

/-- A word as two bytes, the less significant first (20_memory.md R32). -/
def wordBytes (w : Word) : List Byte := [loByte w, hiByte w]

/-- The register field of a Register operand (R60). -/
def encodeReg : Operand → BitVec 3
  | .register c a => regCode c a
  | _ => 0

/-- The `mod` and `r/m` fields and the `nd` displacement bytes of an r/m operand (R58's table read backwards). -/
def encodeRm (nd : Nat) : Operand → BitVec 2 × BitVec 3 × List Byte
  | .register c a => (0b11, regCode c a, [])
  | .memory (.direct a) => (0b00, 0b110, wordBytes a)
  | .memory (.calculated b d) =>
      if nd = 0 then (0b00, baseCode b, [])
      else if nd = 1 then (0b01, baseCode b, [loByte d])
      else (0b10, baseCode b, wordBytes d)
  | _ => (0, 0, [])

/-- The mode/reg/r-m byte and what follows it for an r/m operand beside a `reg` field. -/
def encodeModRm (reg : BitVec 3) (nd : Nat) (o : Operand) : List Byte :=
  modRmByte (encodeRm nd o).1 reg (encodeRm nd o).2.1 :: (encodeRm nd o).2.2

/-- The immediate bytes (R59's table read backwards). -/
def encodeImm (wide sext : Bool) : Operand → List Byte
  | .immediateData v => if wide && !sext then wordBytes v else [loByte v]
  | _ => []

/-- The bytes of the fields of a record in a format (R52). -/
def encodeFields (tag : OperationTag) (f : Fields) : List Byte :=
  let w := bitAt f.flags.wide 0
  match tag.format, f.dst, f.src with
  | .rmReg, some d, some s =>
      (opcodeBase tag ||| bitAt f.flags.dir 1 ||| w) ::
        (if f.flags.dir then encodeModRm (encodeReg d) (displacementBytes f 0) s
         else encodeModRm (encodeReg s) (displacementBytes f 0) d)
  | .immRm, some d, some s =>
      (opcodeBase tag ||| bitAt f.flags.sext 1 ||| w) ::
        (encodeModRm (subDispatch tag) (displacementBytes f (immediateBytes f.flags.wide f.flags.sext)) d ++
          encodeImm f.flags.wide f.flags.sext s)
  | .movImmRm, some d, some s =>
      (opcodeBase tag ||| w) ::
        (encodeModRm (subDispatch tag) (displacementBytes f (immediateBytes f.flags.wide false)) d ++
          encodeImm f.flags.wide false s)
  | .immReg, some d, some s =>
      (opcodeBase tag ||| bitAt f.flags.wide 3 ||| (encodeReg d).setWidth 8) :: encodeImm f.flags.wide false s
  | .immAcc, some _, some s => (opcodeBase tag ||| w) :: encodeImm f.flags.wide false s
  | .memAcc, some (.memory (.direct a)), some _ => (opcodeBase tag ||| w) :: wordBytes a
  | .memAcc, some _, some (.memory (.direct a)) => (opcodeBase tag ||| w) :: wordBytes a
  | .rel8, some (.labelOffset k), _ => [opcodeBase tag, k]
  | .none, _, _ => [opcodeBase tag]
  | _, _, _ => []

/-- The bytes of a well-formed record (R52, R69); of a hand-built record that no encoding gives, no promise is made. -/
def encode (i : Instr) : List Byte := encodeFields i.operation i.fields

/-! ### Words numbered as spec/opcode_table.json numbers them -/

/-- Byte `k` of an instruction of `nbits` bits whose bits are `w`. The table numbers 16-bit words with byte 0 in bits 15:8
and byte 1 in bits 7:0; a word that holds one byte only has it in its bits 7:0. Bytes above `nbits` are zero. -/
def tableByte (nbits w k : Nat) : Byte :=
  let n := (nbits + 7) / 8
  if n ≤ k then 0
  else if k % 2 = 1 then BitVec.ofNat 8 (w / 2 ^ (8 * (k - 1)))
  else if k + 1 < n then BitVec.ofNat 8 (w / 2 ^ (8 * (k + 1)))
  else BitVec.ofNat 8 (w / 2 ^ (8 * k))

/-- The longest instruction's worth of bytes of a table word, in stream order. -/
def tableBytes (nbits w : Nat) : List Byte :=
  [tableByte nbits w 0, tableByte nbits w 1, tableByte nbits w 2,
   tableByte nbits w 3, tableByte nbits w 4, tableByte nbits w 5]

/-- The instruction the decoder reads from a table word. -/
def decodeTableWord (nbits w : Nat) : Option Instr := decode (tableBytes nbits w)

end Sys2Proof
end

