-- ==== Sys2Proof/Machine/Wiring.lean ====
section
/-! DEFINITION. The parameter WIRED: which jump and loop operations the engine executes (spec 00_scope.md R6,
44_jumps.md R161). -/

namespace Sys2Proof.Machine

/-- R161's default, `{Je, Jne, Js, Jns, Loop, Loopz, Loopnz}`. DESIGN CHOICE (log entry 1), unsafe: the spec leaves WIRED
open and says that this default errs toward proving. -/
def defaultWired : Wired :=
  { je := true, jne := true, js := true, jns := true, jcxz := false, loopz := true, loopnz := true }

/-- The smallest WIRED the spec allows, `{Loop}` (R161's lower bound). -/
def smallestWired : Wired :=
  { je := false, jne := false, js := false, jns := false, jcxz := false, loopz := false, loopnz := false }

/-- Membership in WIRED (R161): `Loop` always, the other eligible operations as chosen, nothing else ever. -/
def isWired (w : Wired) : OperationTag → Bool
  | .loop => true
  | .je => w.je
  | .jne => w.jne
  | .js => w.js
  | .jns => w.jns
  | .jcxz => w.jcxz
  | .loopz => w.loopz
  | .loopnz => w.loopnz
  | .jo | .jno | .jb | .jnb | .jbe | .ja | .jp | .jnp | .jl | .jnl | .jle | .jg => false
  | .movRmReg | .movImmRm | .movImmReg | .movMemToAcc | .movAccToMem => false
  | .addRmReg | .addImmRm | .addImmAcc | .subRmReg | .subImmRm | .subImmAcc => false
  | .cmpRmReg | .cmpImmRm | .cmpImmAcc | .hlt => false

end Sys2Proof.Machine
end

