-- ==== Sys2Proof/Machine/State.lean ====
section
/-! DEFINITION. The state of the machine (spec 10_state.md R10 to R23), the ways a step can be cut short
(60_exceptions.md R261), and the state right after reset. -/

namespace Sys2Proof.Machine

/-- The eight independent 16-bit cells (R10). -/
structure Regs where
  ax : Word
  cx : Word
  dx : Word
  bx : Word
  sp : Word
  bp : Word
  si : Word
  di : Word
deriving DecidableEq, Repr

/-- The register STATUS (R17). Two of the fault values carry what R261 says the fault records. -/
inductive Status where
  /-- 0: the engine will fetch at IP on the next step. -/
  | running
  /-- 1: a `hlt` was fetched; the run ended with no error. -/
  | halted
  /-- 2: the decoder returned None at IP. -/
  | stoppedUndecodable
  /-- 3: a jump or loop outside WIRED was reached; the operation is recorded. -/
  | faultUnimplemented (op : OperationTag)
  /-- 4: a structurally invalid operand combination was executed. -/
  | faultOperand
  /-- 5: an index left 0..65535; the offending integer is recorded. -/
  | faultBounds (address : Int)
  /-- 6: the program did not fit with its sentinel. -/
  | loadRefused
deriving DecidableEq, Repr

/-- The three fatal aborts an instruction can raise (60_exceptions.md R261 codes 3, 4, 5). -/
inductive Abort where
  /-- A jump or loop outside WIRED was reached (R162, R264). -/
  | unimplemented (op : OperationTag)
  /-- The operand list is structurally invalid for the operation (R101, R265). -/
  | operand
  /-- An index outside 0..65535 (R38, R113, R180, R267). -/
  | bounds (address : Int)
deriving DecidableEq, Repr

/-- All the state the spec gives the machine (R10, R13, R15, R17, R20), and the parameter WIRED, which the fixed form of
`exec` leaves no other place to carry (R22 calls it a parameter of the step relation, log entry 1; nothing writes it). -/
structure State where
  regs : Regs
  ip : Word
  zf : Bool
  sf : Bool
  mem : List Host.Cell
  status : Status
  wired : Wired
deriving DecidableEq, Repr

/-- Reasons for which a step gives no next state. There are none, so this type is empty: every exceptional event of the
spec is a value of STATUS in a next state (R17, R261, R262; log entry 2). Nobody raises one; safe. -/
inductive Fault : Type
deriving DecidableEq, Repr

/-- Reasons for which an instruction has no meaning. -/
inductive Refusal where
  /-- Raised by `exec` for an instruction that has no meaning yet, by its mnemonic; no arm raises it now. Safe. -/
  | notModelled (mnemonic : String)
deriving DecidableEq, Repr

/-- The state right after reset (R23, 70_reset_and_hazards.md R290): reset and load are one operation, so this is the load
of the empty program: everything zero, RUNNING, and the sentinel `hlt` at address 0 (log entry 3). -/
def State.reset : State :=
  { regs := ⟨0, 0, 0, 0, 0, 0, 0, 0⟩
    ip := 0
    zf := false
    sf := false
    mem := [(0, hltOpcode)]
    status := .running
    wired := defaultWired }

end Sys2Proof.Machine
end

