-- ==== Sys2Proof/Machine/Ops.lean ====
section
/-! DEFINITION. The named operations over registers and memory, raising an abort (the spec's only exception entry,
60_exceptions.md R262), the ends of a step, and reset-and-load. There is no return from an exception: R271 says nothing
is there to return to, and the only recovery is `load`. -/

namespace Sys2Proof.Machine

/-! ### Registers (10_state.md R10 to R12, 40_operands.md R96, R97) -/

/-- `x[c]` (R8). -/
def readCell (r : Regs) : RegCell → Word
  | .ax => r.ax | .cx => r.cx | .dx => r.dx | .bx => r.bx
  | .sp => r.sp | .bp => r.bp | .si => r.si | .di => r.di

/-- `x[c] <- v` (R8). -/
def writeCell (r : Regs) (c : RegCell) (v : Word) : Regs :=
  match c with
  | .ax => { r with ax := v } | .cx => { r with cx := v } | .dx => { r with dx := v } | .bx => { r with bx := v }
  | .sp => { r with sp := v } | .bp => { r with bp := v } | .si => { r with si := v } | .di => { r with di := v }

/-- `RegRead(c, a)` (R96), its 8-bit results held zero-extended as R98 asks. -/
def regRead (r : Regs) (c : RegCell) : Access → Word
  | .full => readCell r c
  | .low => zextByte (loByte (readCell r c))
  | .high => zextByte (hiByte (readCell r c))

/-- `RegWrite(c, a, v)` (R97): a Low or High write takes the low byte of `v` and keeps the cell's other byte. -/
def regWrite (r : Regs) (c : RegCell) (a : Access) (v : Word) : Regs :=
  match a with
  | .full => writeCell r c v
  | .low => writeCell r c (wordOf (hiByte (readCell r c)) (loByte v))
  | .high => writeCell r c (wordOf (loByte v) (loByte (readCell r c)))

/-! ### Memory (20_memory.md R30 to R38) -/

/-- What an address that memory does not list reads as: 0x00 (10_state.md R23, which fills memory with it at load). -/
def unlistedByte : Byte := 0x00#8

/-- `MEM[a]` (R8). -/
def readByte : List Host.Cell → Nat → Byte
  | [], _ => unlistedByte
  | c :: m, a => if c.1 = a then c.2 else readByte m a

/-- Memory without any entry for the address `a`. -/
def eraseCell : List Host.Cell → Nat → List Host.Cell
  | [], _ => []
  | c :: m, a => if c.1 = a then eraseCell m a else c :: eraseCell m a

/-- Memory with an entry put before the first higher address. -/
def insertCell : List Host.Cell → Nat → Byte → List Host.Cell
  | [], a, v => [(a, v)]
  | c :: m, a, v => if a < c.1 then (a, v) :: c :: m else c :: insertCell m a v

/-- `MEM[a] <- v` (R8): writing what an unlisted address reads as leaves no entry. -/
def writeByte (m : List Host.Cell) (a : Nat) (v : Byte) : List Host.Cell :=
  if v = unlistedByte then eraseCell m a else insertCell (eraseCell m a) a v

/-- Entries rise strictly from `from` on, lie in the address space, and none holds the unlisted value. -/
def Memory.wfFrom : Nat → List Host.Cell → Bool
  | _, [] => true
  | n, c :: m => decide (n ≤ c.1) && decide (c.1 ≤ 65535) && c.2 != unlistedByte && Memory.wfFrom (c.1 + 1) m

/-- Memory's one canonical form. -/
def Memory.wf (m : List Host.Cell) : Bool := Memory.wfFrom 0 m

/-- The number of bytes of an access (R36). -/
def accessBytes (wide : Bool) : Nat := if wide then 2 else 1

/-- Whether every byte of an access lies in 0..65535 (R33, R34, R38). -/
def inBounds (addr : Int) (wide : Bool) : Bool :=
  decide (0 ≤ addr) && decide (addr + (accessBytes wide : Int) - 1 ≤ 65535)

/-- The 1 or 2 bytes at `a`, little-endian, zero-extended (R32, R33, R98). -/
def memValue (m : List Host.Cell) (a : Nat) (wide : Bool) : Word :=
  if wide then wordOf (readByte m (a + 1)) (readByte m a) else zextByte (readByte m a)

/-- Memory after the low 1 or 2 bytes of `v` are written at `a`, little-endian (R32, R34). -/
def memStore (m : List Host.Cell) (a : Nat) (wide : Bool) (v : Word) : List Host.Cell :=
  if wide then writeByte (writeByte m a (loByte v)) (a + 1) (hiByte v) else writeByte m a (loByte v)

/-- `MemRead(addr, n)` (R33): out of bounds raises BoundsFault, recording `addr`. -/
def memRead (m : List Host.Cell) (addr : Int) (wide : Bool) : Except Abort Word :=
  if inBounds addr wide then .ok (memValue m addr.toNat wide) else .error (.bounds addr)

/-- `MemWrite(addr, n, v)` (R34): the bounds check precedes both byte writes. -/
def memWrite (m : List Host.Cell) (addr : Int) (wide : Bool) (v : Word) : Except Abort (List Host.Cell) :=
  if inBounds addr wide then .ok (memStore m addr.toNat wide v) else .error (.bounds addr)

/-- Bytes written from `a` on, those past the top of memory dropped. -/
def placeBytes (m : List Host.Cell) (a : Nat) : List Byte → List Host.Cell
  | [] => m
  | b :: bs => placeBytes (if a ≤ 65535 then writeByte m a b else m) (a + 1) bs

/-- All 65536 bytes in address order (48_interfaces.md R245). -/
def memoryImage (m : List Host.Cell) : List Byte := (List.range 65536).map (readByte m)

/-! ### Raising an abort, and the ends of a step -/

/-- The STATUS value of an abort (60_exceptions.md R261). -/
def abortStatus : Abort → Status
  | .unimplemented op => .faultUnimplemented op
  | .operand => .faultOperand
  | .bounds a => .faultBounds a

/-- The code of a STATUS value (10_state.md R17). -/
def statusCode : Status → Nat
  | .running => 0
  | .halted => 1
  | .stoppedUndecodable => 2
  | .faultUnimplemented _ => 3
  | .faultOperand => 4
  | .faultBounds _ => 5
  | .loadRefused => 6

/-- `raise F(info)` at a step that began in `s` (60_exceptions.md R262): nothing is committed but STATUS. It saves nothing
else, changes no mode and transfers control nowhere (R270). -/
def raise (s : State) (e : Abort) : State := { s with status := abortStatus e }

/-- The end of an instruction that began in `s`: it commits its result, or it raises (41_cycle.md R111, R262). -/
def conclude (s : State) : Except Abort State → Host.Outcome State Fault Refusal
  | .ok t => .next t
  | .error e => .next (raise s e)

/-- A decode failure at IP (41_cycle.md R114). -/
def stopUndecodable (s : State) : State := { s with status := .stoppedUndecodable }

/-- A fetched `hlt` (46_hlt.md R200). -/
def halt (s : State) : State := { s with status := .halted }

/-- IP moved past an instruction of `size` bytes; an index past 65535 raises BoundsFault (41_cycle.md R112, R113). -/
def advance (size : Nat) (s : State) : Except Abort State :=
  if s.ip.toNat + size ≤ 65535 then .ok { s with ip := BitVec.ofNat 16 (s.ip.toNat + size) }
  else .error (.bounds ((s.ip.toNat + size : Nat) : Int))

/-! ### Fetch (20_memory.md R45) -/

/-- The bytes at IP, as many as the longest instruction has and as lie below 65536; the decoder needs no more (R75). -/
def fetchWindow (s : State) : List Byte :=
  (List.range (min 6 (65536 - s.ip.toNat))).map fun k => readByte s.mem (s.ip.toNat + k)

/-- The instruction at IP, or None (41_cycle.md R111). -/
def fetchDecode (s : State) : Option Instr := decode (fetchWindow s)

/-- The bytes stored where the next step fetches, and a machine that will fetch. -/
def placeAtIp (s : State) (bytes : List Byte) : State :=
  { s with mem := placeBytes s.mem s.ip.toNat bytes, status := .running }

/-! ### Reset and load (70_reset_and_hazards.md R290) -/

/-- `Load(P)`: reset and load in one operation. WIRED, a parameter, is kept. A program too long for its sentinel is
refused: only STATUS is written (log entry 7). -/
def load (s : State) (program : List Byte) : State :=
  if program.length ≤ 65535 then
    { regs := ⟨0, 0, 0, 0, 0, 0, 0, 0⟩
      ip := 0
      zf := false
      sf := false
      mem := placeBytes [] 0 (program ++ [hltOpcode])
      status := .running
      wired := s.wired }
  else { s with status := .loadRefused }

end Sys2Proof.Machine
end

