-- ==== Sys2Proof/Machine/Flags.lean ====
section
/-! DEFINITION. The ALU function of `add`, `sub` and `cmp` and the flag rule (spec 43_arith.md R140, R141). -/

namespace Sys2Proof.Machine

/-- The three arithmetic operations (R140). -/
inductive AluOp where
  | add | sub | cmp
deriving DecidableEq, Repr

/-- R140's 16-bit intermediate `r16`, which wraps modulo 65536. -/
def aluResult (op : AluOp) (d s : Word) : Word :=
  match op with
  | .add => d + s
  | .sub | .cmp => d - s

/-- `stored = trunc_W(r16)`, held in 16 bits (R140). -/
def truncated (wide : Bool) (r : Word) : Word := if wide then r else zextByte (loByte r)

/-- ZF: the stored value is zero (R141). -/
def zeroFlag (wide : Bool) (r : Word) : Bool := truncated wide r == 0

/-- SF: the top bit of the stored value, bit 15 or bit 7 (R141). -/
def signFlag (wide : Bool) (r : Word) : Bool := if wide then r.getLsbD 15 else r.getLsbD 7

/-- Both flags recomputed from a result at a width (R16, R141). -/
def setFlags (s : State) (wide : Bool) (r : Word) : State :=
  { s with zf := zeroFlag wide r, sf := signFlag wide r }

/-- Whether the operation stores its result: `cmp` does not (R140). -/
def aluStores : AluOp → Bool
  | .add | .sub => true
  | .cmp => false

end Sys2Proof.Machine
end

