-- ==== Sys2Proof/Machine/Operands.lean ====
section
/-! DEFINITION. Addressing, operand reads and writes, and the structural checks on a record's operands
(spec 40_operands.md R93 to R101). -/

namespace Sys2Proof.Machine

/-! ### Effective addresses (R93, R94) -/

/-- `BaseSum(b)`: the unbounded sum of the base's cells (R94). -/
def baseSum (r : Regs) : Base → Nat
  | .bxSi => r.bx.toNat + r.si.toNat
  | .bxDi => r.bx.toNat + r.di.toNat
  | .bpSi => r.bp.toNat + r.si.toNat
  | .bpDi => r.bp.toNat + r.di.toNat
  | .si => r.si.toNat
  | .di => r.di.toNat
  | .bp => r.bp.toNat
  | .bx => r.bx.toNat

/-- `EA(ea)`: an integer, not reduced modulo 65536 (R94). -/
def effectiveAddress (r : Regs) : EffectiveAddress → Int
  | .direct a => (a.toNat : Int)
  | .calculated b d => (baseSum r b : Int) + d.toInt

/-! ### Structural checks (R95, R100, R101) -/

/-- Whether an operand's width is the instruction's, and a byte view is one that exists: R100's agreement and R95.
A narrow immediate has a zero upper byte. -/
def operandFits (wide : Bool) : Operand → Bool
  | .register c a => if wide then a == .full else a != .full && byteAddressable c
  | .memory _ => true
  | .immediateData v => wide || hiByte v == 0
  | .labelOffset _ => false

/-- Whether an operand may be a destination (R101). -/
def isDestination : Operand → Bool
  | .register _ _ | .memory _ => true
  | .immediateData _ | .labelOffset _ => false

/-- Whether an operand is a memory reference. -/
def isMemory : Operand → Bool
  | .memory _ => true
  | .register _ _ | .immediateData _ | .labelOffset _ => false

/-- R101's list for `mov`, `add`, `sub` and `cmp`, with R100's width agreement. -/
def validPair (wide : Bool) (d s : Operand) : Bool :=
  isDestination d && operandFits wide d && operandFits wide s && !(isMemory d && isMemory s)

/-- The two operands of a `mov`, `add`, `sub` or `cmp`, or OperandFault (R101). -/
def operandPair (f : Fields) : Except Abort (Operand × Operand) :=
  match f.dst, f.src with
  | some d, some s => if validPair f.flags.wide d s then .ok (d, s) else .error .operand
  | _, _ => .error .operand

/-- The offset of a jump or loop, or OperandFault (R101, 44_jumps.md R160, 45_loops.md R190). -/
def branchOffset (f : Fields) : Except Abort Byte :=
  match f.dst, f.src with
  | some (.labelOffset k), none => .ok k
  | _, _ => .error .operand

/-! ### Operand values and stores (R98, R99) -/

/-- Whether the bytes an operand names all exist: a memory access in bounds, anything else always (R98, R99). -/
def accessible (s : State) (wide : Bool) : Operand → Bool
  | .memory ea => inBounds (effectiveAddress s.regs ea) wide
  | .register _ _ | .immediateData _ | .labelOffset _ => true

/-- The value of an operand as 16 bits, zero-extended from 8 (R98). -/
def operandValue (s : State) (wide : Bool) : Operand → Word
  | .register c a => regRead s.regs c a
  | .immediateData v => v
  | .memory ea => memValue s.mem (effectiveAddress s.regs ea).toNat wide
  | .labelOffset _ => 0

/-- The state after `v` is stored through an operand's own width (R99). -/
def storeOperand (s : State) (wide : Bool) (v : Word) : Operand → State
  | .register c a => { s with regs := regWrite s.regs c a v }
  | .memory ea => { s with mem := memStore s.mem (effectiveAddress s.regs ea).toNat wide v }
  | .immediateData _ | .labelOffset _ => s

/-- `ReadOperand(op, wide)` (R98). -/
def readOperand (s : State) (wide : Bool) : Operand → Except Abort Word
  | .register c a => .ok (regRead s.regs c a)
  | .immediateData v => .ok v
  | .memory ea => memRead s.mem (effectiveAddress s.regs ea) wide
  | .labelOffset _ => .error .operand

/-- `WriteOperand(op, wide, v)` (R99). -/
def writeOperand (s : State) (wide : Bool) (v : Word) : Operand → Except Abort State
  | .register c a => .ok { s with regs := regWrite s.regs c a v }
  | .memory ea =>
      match memWrite s.mem (effectiveAddress s.regs ea) wide v with
      | .ok m => .ok { s with mem := m }
      | .error e => .error e
  | .immediateData _ | .labelOffset _ => .error .operand

/-- `DestWidth(op, wide)` as a truth value: 16 bits or 8 (R99). -/
def destWide (wide : Bool) : Operand → Bool
  | .register _ a => accessWide a
  | .memory _ | .immediateData _ | .labelOffset _ => wide

end Sys2Proof.Machine
end

