-- ==== Sys2Proof/Machine/Arith.lean ====
section
/-! DEFINITION. add, sub and cmp (spec 43_arith.md R140 to R150). Each meaning starts in the state before the step. -/

namespace Sys2Proof.Machine

/-- R140's store: `cmp` stores nothing, the others write the result through the destination's own width. -/
def aluStore (op : AluOp) (s : State) (wide : Bool) (r : Word) (dst : Operand) : Except Abort State :=
  if aluStores op then writeOperand s wide r dst else .ok s

/-- `ExecAlu` (R140): source read, destination read, destination written unless `cmp`, then both flags from the stored
value at the destination's width (R141). -/
def execAlu (op : AluOp) (f : Fields) (s : State) : Host.Outcome State Fault Refusal :=
  conclude s (do
    let s1 ← advance f.size s
    let p ← operandPair f
    let sv ← readOperand s1 f.flags.wide p.2
    let dv ← readOperand s1 f.flags.wide p.1
    let r := aluResult op dv sv
    let s2 ← aluStore op s1 f.flags.wide r p.1
    .ok (setFlags s2 (destWide f.flags.wide p.1) r))

/-- `add` register/memory with register (R142). -/
def execAddRmReg (f : Fields) (s : State) : Host.Outcome State Fault Refusal := execAlu .add f s

/-- `add` immediate with register/memory (R143). -/
def execAddImmRm (f : Fields) (s : State) : Host.Outcome State Fault Refusal := execAlu .add f s

/-- `add` immediate with accumulator (R144). -/
def execAddImmAcc (f : Fields) (s : State) : Host.Outcome State Fault Refusal := execAlu .add f s

/-- `sub` register/memory with register (R145). -/
def execSubRmReg (f : Fields) (s : State) : Host.Outcome State Fault Refusal := execAlu .sub f s

/-- `sub` immediate with register/memory (R146). -/
def execSubImmRm (f : Fields) (s : State) : Host.Outcome State Fault Refusal := execAlu .sub f s

/-- `sub` immediate with accumulator (R147). -/
def execSubImmAcc (f : Fields) (s : State) : Host.Outcome State Fault Refusal := execAlu .sub f s

/-- `cmp` register/memory with register (R148). -/
def execCmpRmReg (f : Fields) (s : State) : Host.Outcome State Fault Refusal := execAlu .cmp f s

/-- `cmp` immediate with register/memory (R149). -/
def execCmpImmRm (f : Fields) (s : State) : Host.Outcome State Fault Refusal := execAlu .cmp f s

/-- `cmp` immediate with accumulator (R150). -/
def execCmpImmAcc (f : Fields) (s : State) : Host.Outcome State Fault Refusal := execAlu .cmp f s

end Sys2Proof.Machine
end

