-- ==== Sys2Proof/Machine/Halt.lean ====
section
/-! DEFINITION. hlt (spec 46_hlt.md R200), the one system instruction. -/

namespace Sys2Proof.Machine

/-- `hlt` (R200): STATUS becomes HALTED and nothing else changes; IP is not advanced, so nothing about the record's operands
or size is looked at (41_cycle.md R111, R113). -/
def execHlt (_f : Fields) (s : State) : Host.Outcome State Fault Refusal := .next (halt s)

end Sys2Proof.Machine
end

