-- ==== Sys2Proof/Machine/Jumps.lean ====
section
/-! DEFINITION. The seventeen conditional jumps (spec 44_jumps.md R160 to R180). Each meaning starts in the state before the
step. -/

namespace Sys2Proof.Machine

/-- R162's check: an operation outside WIRED raises UnimplementedFault, recording the operation. -/
def requireWired (op : OperationTag) (s : State) : Except Abort Unit :=
  if isWired s.wired op then .ok () else .error (.unimplemented op)

/-- The branch of a taken jump or loop, IP already past the instruction (R160, R180): a target outside 0..65535 raises
BoundsFault, recording the target. -/
def branchTo (k : Byte) (s : State) : Except Abort State :=
  if 0 ≤ (s.ip.toNat : Int) + k.toInt ∧ (s.ip.toNat : Int) + k.toInt ≤ 65535 then
    .ok { s with ip := BitVec.ofInt 16 ((s.ip.toNat : Int) + k.toInt) }
  else .error (.bounds ((s.ip.toNat : Int) + k.toInt))

/-- `ExecJump` (R160) for an operation whose predicate is `taken`; the wiring test comes before the predicate. -/
def execJump (op : OperationTag) (taken : State → Bool) (f : Fields) (s : State) :
    Host.Outcome State Fault Refusal :=
  conclude s (do
    let s1 ← advance f.size s
    let k ← branchOffset f
    requireWired op s1
    if taken s1 then branchTo k s1 else .ok s1)

/-- A never wired jump (R161, R162): it always raises UnimplementedFault, whatever the flags hold. -/
def execNeverWired (op : OperationTag) (f : Fields) (s : State) : Host.Outcome State Fault Refusal :=
  conclude s (do
    let _ ← advance f.size s
    let _ ← branchOffset f
    .error (.unimplemented op))

/-- `jo` (R163): never wired. -/
def execJo (f : Fields) (s : State) : Host.Outcome State Fault Refusal := execNeverWired .jo f s

/-- `jno` (R164): never wired. -/
def execJno (f : Fields) (s : State) : Host.Outcome State Fault Refusal := execNeverWired .jno f s

/-- `jb` (R165): never wired. -/
def execJb (f : Fields) (s : State) : Host.Outcome State Fault Refusal := execNeverWired .jb f s

/-- `jnb` (R166): never wired. -/
def execJnb (f : Fields) (s : State) : Host.Outcome State Fault Refusal := execNeverWired .jnb f s

/-- `je` (R167): eligible; taken when ZF = 1. -/
def execJe (f : Fields) (s : State) : Host.Outcome State Fault Refusal := execJump .je (fun t => t.zf) f s

/-- `jne` (R168): eligible; taken when ZF = 0. -/
def execJne (f : Fields) (s : State) : Host.Outcome State Fault Refusal := execJump .jne (fun t => !t.zf) f s

/-- `jbe` (R169): never wired. -/
def execJbe (f : Fields) (s : State) : Host.Outcome State Fault Refusal := execNeverWired .jbe f s

/-- `ja` (R170): never wired. -/
def execJa (f : Fields) (s : State) : Host.Outcome State Fault Refusal := execNeverWired .ja f s

/-- `js` (R171): eligible; taken when SF = 1. -/
def execJs (f : Fields) (s : State) : Host.Outcome State Fault Refusal := execJump .js (fun t => t.sf) f s

/-- `jns` (R172): eligible; taken when SF = 0. -/
def execJns (f : Fields) (s : State) : Host.Outcome State Fault Refusal := execJump .jns (fun t => !t.sf) f s

/-- `jp` (R173): never wired. -/
def execJp (f : Fields) (s : State) : Host.Outcome State Fault Refusal := execNeverWired .jp f s

/-- `jnp` (R174): never wired. -/
def execJnp (f : Fields) (s : State) : Host.Outcome State Fault Refusal := execNeverWired .jnp f s

/-- `jl` (R175): never wired. -/
def execJl (f : Fields) (s : State) : Host.Outcome State Fault Refusal := execNeverWired .jl f s

/-- `jnl` (R176): never wired. -/
def execJnl (f : Fields) (s : State) : Host.Outcome State Fault Refusal := execNeverWired .jnl f s

/-- `jle` (R177): never wired. -/
def execJle (f : Fields) (s : State) : Host.Outcome State Fault Refusal := execNeverWired .jle f s

/-- `jg` (R178): never wired. -/
def execJg (f : Fields) (s : State) : Host.Outcome State Fault Refusal := execNeverWired .jg f s

/-- `jcxz` (R179): eligible; taken when the whole `cx` is 0; it changes no cell and reads no flag. -/
def execJcxz (f : Fields) (s : State) : Host.Outcome State Fault Refusal := execJump .jcxz (fun t => t.regs.cx == 0) f s

end Sys2Proof.Machine
end

