-- ==== Sys2Proof/Machine/Loops.lean ====
section
/-! DEFINITION. loop, loopz and loopnz (spec 45_loops.md R190 to R194). Each meaning starts in the state before the step. -/

namespace Sys2Proof.Machine

/-- The whole counter `cx`, one less modulo 65536 (R190). -/
def decrementCx (s : State) : State := { s with regs := writeCell s.regs .cx (readCell s.regs .cx - 1) }

/-- `ExecLoop` (R190) for an operation whose extra condition is `extra`: the counter is decremented whether or not the
branch is taken, no flag changes, and a target out of bounds undoes the decrement (R262). -/
def execLoopWith (op : OperationTag) (extra : State → Bool) (f : Fields) (s : State) :
    Host.Outcome State Fault Refusal :=
  conclude s (do
    let s1 ← advance f.size s
    let k ← branchOffset f
    requireWired op s1
    let s2 := decrementCx s1
    if readCell s2.regs .cx != 0 && extra s2 then branchTo k s2 else .ok s2)

/-- `loop` (R193): no extra condition; always wired. -/
def execLoop (f : Fields) (s : State) : Host.Outcome State Fault Refusal :=
  execLoopWith .loop (fun _ => true) f s

/-- `loopz` (R192): the branch also needs ZF = 1. -/
def execLoopz (f : Fields) (s : State) : Host.Outcome State Fault Refusal :=
  execLoopWith .loopz (fun t => t.zf) f s

/-- `loopnz` (R191): the branch also needs ZF = 0. -/
def execLoopnz (f : Fields) (s : State) : Host.Outcome State Fault Refusal :=
  execLoopWith .loopnz (fun t => !t.zf) f s

end Sys2Proof.Machine
end

