-- ==== Sys2Proof/Machine/Mov.lean ====
section
/-! DEFINITION. The mov family (spec 42_mov.md R130 to R135). Each meaning starts in the state before the step: it advances
IP, executes, and commits or raises (41_cycle.md R111). -/

namespace Sys2Proof.Machine

/-- `ExecMov` (R130): the source is read completely before the destination is written; no flag changes. -/
def execMov (f : Fields) (s : State) : Host.Outcome State Fault Refusal :=
  conclude s (do
    let s1 ← advance f.size s
    let p ← operandPair f
    let v ← readOperand s1 f.flags.wide p.2
    writeOperand s1 f.flags.wide v p.1)

/-- `mov` register/memory to or from register (R131). -/
def execMovRmReg (f : Fields) (s : State) : Host.Outcome State Fault Refusal := execMov f s

/-- `mov` immediate to register/memory (R132). -/
def execMovImmRm (f : Fields) (s : State) : Host.Outcome State Fault Refusal := execMov f s

/-- `mov` immediate to register (R133). -/
def execMovImmReg (f : Fields) (s : State) : Host.Outcome State Fault Refusal := execMov f s

/-- `mov` memory to accumulator (R134). -/
def execMovMemToAcc (f : Fields) (s : State) : Host.Outcome State Fault Refusal := execMov f s

/-- `mov` accumulator to memory (R135). -/
def execMovAccToMem (f : Fields) (s : State) : Host.Outcome State Fault Refusal := execMov f s

end Sys2Proof.Machine
end

