-- ==== Sys2Proof/Machine/Dispatch.lean ====
section
/-! DEFINITION. One arm per instruction (spec 41_cycle.md R118): the transition of a running machine whose decoded
instruction is `i`, from the state before the step. `step` alone looks at STATUS (log entry 10). -/

namespace Sys2Proof.Machine

def exec (i : Instr) (s : State) : Host.Outcome State Fault Refusal :=
  match i with
  | .movRmReg f => Sys2Proof.Machine.execMovRmReg f s
  | .movImmRm f => Sys2Proof.Machine.execMovImmRm f s
  | .movImmReg f => Sys2Proof.Machine.execMovImmReg f s
  | .movMemToAcc f => Sys2Proof.Machine.execMovMemToAcc f s
  | .movAccToMem f => Sys2Proof.Machine.execMovAccToMem f s
  | .addRmReg f => Sys2Proof.Machine.execAddRmReg f s
  | .addImmRm f => Sys2Proof.Machine.execAddImmRm f s
  | .addImmAcc f => Sys2Proof.Machine.execAddImmAcc f s
  | .subRmReg f => Sys2Proof.Machine.execSubRmReg f s
  | .subImmRm f => Sys2Proof.Machine.execSubImmRm f s
  | .subImmAcc f => Sys2Proof.Machine.execSubImmAcc f s
  | .cmpRmReg f => Sys2Proof.Machine.execCmpRmReg f s
  | .cmpImmRm f => Sys2Proof.Machine.execCmpImmRm f s
  | .cmpImmAcc f => Sys2Proof.Machine.execCmpImmAcc f s
  | .jo f => Sys2Proof.Machine.execJo f s
  | .jno f => Sys2Proof.Machine.execJno f s
  | .jb f => Sys2Proof.Machine.execJb f s
  | .jnb f => Sys2Proof.Machine.execJnb f s
  | .je f => Sys2Proof.Machine.execJe f s
  | .jne f => Sys2Proof.Machine.execJne f s
  | .jbe f => Sys2Proof.Machine.execJbe f s
  | .ja f => Sys2Proof.Machine.execJa f s
  | .js f => Sys2Proof.Machine.execJs f s
  | .jns f => Sys2Proof.Machine.execJns f s
  | .jp f => Sys2Proof.Machine.execJp f s
  | .jnp f => Sys2Proof.Machine.execJnp f s
  | .jl f => Sys2Proof.Machine.execJl f s
  | .jnl f => Sys2Proof.Machine.execJnl f s
  | .jle f => Sys2Proof.Machine.execJle f s
  | .jg f => Sys2Proof.Machine.execJg f s
  | .loopnz f => Sys2Proof.Machine.execLoopnz f s
  | .loopz f => Sys2Proof.Machine.execLoopz f s
  | .loop f => Sys2Proof.Machine.execLoop f s
  | .jcxz f => Sys2Proof.Machine.execJcxz f s
  | .hlt f => Sys2Proof.Machine.execHlt f s

end Sys2Proof.Machine
end

