-- ==== Sys2Proof/Machine/Step.lean ====
section
/-! DEFINITION. One step (spec 41_cycle.md R111), the machine's only transition, and the placing of an instruction where the
next step fetches it. -/

namespace Sys2Proof.Machine

/-- `Step` (R111): a stopped machine stays as it is; otherwise the instruction at IP runs, or the machine stops where none
decodes. Moving IP past the instruction is part of `exec`. -/
def step (s : State) : Host.Outcome State Fault Refusal :=
  if s.status = .running then
    match fetchDecode s with
    | some i => exec i s
    | none => .next (stopUndecodable s)
  else .next s

/-- `s` with a table word's bytes at IP, ready to run it (log entry 3). Bytes that would lie past 0xFFFF are dropped. -/
def State.withFetchWord (s : State) (nbits w : Nat) : State := placeAtIp s (tableBytes nbits w)

end Sys2Proof.Machine
end

