-- ==== Sys2Proof/Machine/Text.lean ====
section
/-! DEFINITION. The formatter and the disassembly listing (spec 47_formatter.md R210 to R223). Text is output only: no part
of it is machine state (48_interfaces.md R251). -/

namespace Sys2Proof.Machine

/-- Unsigned decimal without leading zeros (R211). -/
def decText (n : Nat) : String := toString n

/-- A register's name by cell and access (40_operands.md R95, R213). A byte view of cells 4 to 7 does not exist and no
decoded record holds one; its text is the cell's name. -/
def registerText (c : RegCell) (a : Access) : String :=
  match c, a with
  | .ax, .low => "al" | .cx, .low => "cl" | .dx, .low => "dl" | .bx, .low => "bl"
  | .ax, .high => "ah" | .cx, .high => "ch" | .dx, .high => "dh" | .bx, .high => "bh"
  | .ax, .full => "ax" | .cx, .full => "cx" | .dx, .full => "dx" | .bx, .full => "bx"
  | .sp, _ => "sp" | .bp, _ => "bp" | .si, _ => "si" | .di, _ => "di"

/-- The mnemonic of an operation (R212). -/
def mnemonicText : OperationTag → String
  | .movRmReg | .movImmRm | .movImmReg | .movMemToAcc | .movAccToMem => "mov"
  | .addRmReg | .addImmRm | .addImmAcc => "add"
  | .subRmReg | .subImmRm | .subImmAcc => "sub"
  | .cmpRmReg | .cmpImmRm | .cmpImmAcc => "cmp"
  | .jo => "jo" | .jno => "jno" | .jb => "jb" | .jnb => "jnb"
  | .je => "je" | .jne => "jne" | .jbe => "jbe" | .ja => "ja"
  | .js => "js" | .jns => "jns" | .jp => "jp" | .jnp => "jnp"
  | .jl => "jl" | .jnl => "jnl" | .jle => "jle" | .jg => "jg"
  | .loopnz => "loopnz" | .loopz => "loopz" | .loop => "loop" | .jcxz => "jcxz"
  | .hlt => "hlt"

/-- `Base(b)` (R215). -/
def baseText : Base → String
  | .bxSi => "bx + si" | .bxDi => "bx + di" | .bpSi => "bp + si" | .bpDi => "bp + di"
  | .si => "si" | .di => "di" | .bp => "bp" | .bx => "bx"

/-- `DispTerm(disp)` (R216): the sign, then the magnitude; nothing for zero. -/
def dispText (d : Word) : String :=
  if d.toInt = 0 then ""
  else if 0 < d.toInt then " + " ++ decText d.toInt.toNat
  else " - " ++ decText (-d.toInt).toNat

/-- `Op(Memory(ea))` (R215, R217). -/
def memoryText : EffectiveAddress → String
  | .direct a => "[" ++ decText a.toNat ++ "]"
  | .calculated b d => "[" ++ baseText b ++ dispText d ++ "]"

/-- `Op(LabelOffset(k))` (R219): the target relative to the start of the two-byte instruction. -/
def labelText (k : Byte) : String :=
  if 0 ≤ k.toInt + 2 then "$+" ++ decText (k.toInt + 2).toNat else "$-" ++ decText (-(k.toInt + 2)).toNat

/-- `Op` (R213 to R219). -/
def operandText : Operand → String
  | .register c a => registerText c a
  | .memory ea => memoryText ea
  | .immediateData v => decText v.toNat
  | .labelOffset k => labelText k

/-- `SizeSpec(ins)` (R218): for an immediate beside a memory operand only. -/
def sizeText (f : Fields) : String :=
  match f.dst, f.src with
  | some (.memory _), some (.immediateData _) => if f.flags.wide then "word " else "byte "
  | _, _ => ""

/-- `Format(ins)` (R211). -/
def formatText (i : Instr) : String :=
  match i.fields.dst, i.fields.src with
  | none, _ => mnemonicText i.operation
  | some a, none => mnemonicText i.operation ++ " " ++ operandText a
  | some a, some b =>
      mnemonicText i.operation ++ " " ++ sizeText i.fields ++ operandText a ++ ", " ++ operandText b

/-- What a decode failure prints (R221). -/
def unrecognizedText : String := "unrecognized instruction"

/-- The lines of a linear sweep, with `skip` bytes of the last instruction still to pass (R221, 48_interfaces.md R250). -/
def sweep : List Byte → (skip : Nat) → List String
  | [], _ => []
  | _ :: rest, skip + 1 => sweep rest skip
  | b :: rest, 0 =>
      match decode (b :: rest) with
      | none => unrecognizedText :: sweep rest 0
      | some i => formatText i :: sweep rest (i.size - 1)

/-- `Disassemble(B, L)`, one string per line (R221). -/
def disassemble (bytes : List Byte) : List String := "bits 16" :: sweep bytes 0

/-- The listing as one text, each line ended by a line feed (R221). -/
def lineText (lines : List String) : String := lines.foldr (fun l t => l ++ "\n" ++ t) ""

end Sys2Proof.Machine
end

