-- ==== Sys2Proof/Machine/Interface.lean ====
section
/-! DEFINITION. The block's transactions as the host sees them (spec 48_interfaces.md R240 to R252): run, observe, the test
bench's writes, the trace line and the final-state report. -/

namespace Sys2Proof.Machine

/-! ### Running (R242, R244, 41_cycle.md R116) -/

/-- The state a step leaves; `step` always gives one (41_cycle.md R117). -/
def stepState (s : State) : State :=
  match step s with
  | .next t => t
  | .fault _ => s
  | .refused _ => s

/-- `fuel` steps of `Run()`: a stopped machine stays as it is, and a run need not end (R116, 70_reset_and_hazards.md R297). -/
def runFor : Nat → State → State
  | 0, s => s
  | n + 1, s => runFor n (stepState s)

/-- Whether a run has ended successfully (41_cycle.md R119): only HALTED is a final state. -/
def isFinal (s : State) : Bool := s.status == .halted

/-- Whether the host gets to see the state a run ended in (R245): after HALTED and STOPPED_UNDECODABLE only. -/
def isReported (s : State) : Bool := s.status == .halted || s.status == .stoppedUndecodable

/-- What the host can read of an ended run (R242, R245). -/
structure FinalMachineState where
  regs : Regs
  ip : Word
  zf : Bool
  sf : Bool
  status : Status
  mem : List Host.Cell
deriving DecidableEq, Repr

/-- The observation of an ended run (R245): nothing of a run that goes on or has faulted (41_cycle.md R119). -/
def observe (s : State) : Option FinalMachineState :=
  if isReported s then some ⟨s.regs, s.ip, s.zf, s.sf, s.status, s.mem⟩ else none

/-- `run(bytes)` cut off after `fuel` steps (R242). -/
def runProgram (fuel : Nat) (wired : Wired) (program : List Byte) : Option FinalMachineState :=
  observe (runFor fuel (load { State.reset with wired := wired } program))

/-! ### The test bench's writes between steps (R244, R252, 70_reset_and_hazards.md R291) -/

/-- A cell preset through an access. -/
def pokeRegister (s : State) (c : RegCell) (a : Access) (v : Word) : State :=
  { s with regs := regWrite s.regs c a v }

/-- Both flags preset. -/
def pokeFlags (s : State) (z n : Bool) : State := { s with zf := z, sf := n }

/-- A byte of memory preset. -/
def pokeByte (s : State) (a : Word) (v : Byte) : State := { s with mem := writeByte s.mem a.toNat v }

/-- IP preset. -/
def pokeIp (s : State) (a : Word) : State := { s with ip := a }

/-! ### Trace (R246 to R248) -/

/-- `hex(v)`: `0x` and the lower-case digits without leading zeros (R246). -/
def hexText (n : Nat) : String := "0x" ++ String.ofList (Nat.toDigits 16 n)

/-- `FlagStr` (R248). -/
def flagText (s : State) : String := (if s.zf then "Z" else "") ++ (if s.sf then "S" else "")

/-- The destination whose values the operand segment shows (R247): slot 0 of `mov`, `add`, `sub`, `cx` for the loops, none
for `cmp`, the jumps and `hlt`. -/
def traceOperand (i : Instr) : Option Operand :=
  match i.operation with
  | .movRmReg | .movImmRm | .movImmReg | .movMemToAcc | .movAccToMem
  | .addRmReg | .addImmRm | .addImmAcc | .subRmReg | .subImmRm | .subImmAcc => i.fields.dst
  | .loopnz | .loopz | .loop => some (.register .cx .full)
  | .cmpRmReg | .cmpImmRm | .cmpImmAcc
  | .jo | .jno | .jb | .jnb | .je | .jne | .jbe | .ja
  | .js | .jns | .jp | .jnp | .jl | .jnl | .jle | .jg | .jcxz | .hlt => none

/-- The operand segment (R247): the value after is read at the address the instruction used, which the registers before the
step give. -/
def operandSegment (i : Instr) (before after : State) : String :=
  match traceOperand i with
  | none => ""
  | some o =>
      " " ++ operandText o ++ ":" ++ hexText (operandValue before i.fields.flags.wide o).toNat ++ "->" ++
        hexText (match o with
          | .memory ea => memValue after.mem (effectiveAddress before.regs ea).toNat i.fields.flags.wide
          | o => operandValue after i.fields.flags.wide o).toNat

/-- `TraceLine(ins, before, after)` (R246). -/
def traceLine (i : Instr) (before after : State) : String :=
  formatText i ++ " ;" ++ operandSegment i before after ++
    " ip:" ++ hexText before.ip.toNat ++ "->" ++ hexText after.ip.toNat ++
    (if flagText before = flagText after then "" else " flags:" ++ flagText before ++ "->" ++ flagText after)

/-- The trace line of the step from `s`, for a step that executes an instruction: none for one that halts, does not decode,
faults, or finds the machine stopped (R246). -/
def stepTrace (s : State) : Option String :=
  if s.status = .running then
    match fetchDecode s with
    | none => none
    | some i => if (stepState s).status = .running then some (traceLine i s (stepState s)) else none
  else none

/-- The trace of the first `fuel` steps, in order (R246). -/
def runTrace : Nat → State → List String
  | 0, _ => []
  | n + 1, s => (stepTrace s).toList ++ runTrace n (stepState s)

/-! ### Final-state report (R249) -/

/-- `hex4(v)`: four lower-case digits with leading zeros (R249). -/
def hex4Text (w : Word) : String :=
  String.ofList ((Nat.toDigits 16 (w.toNat + 65536)).drop 1)

/-- One line of the report (R249). -/
def reportLine (name : String) (w : Word) : String := name ++ ": 0x" ++ hex4Text w ++ " (" ++ decText w.toNat ++ ")"

/-- The eight cells in cell order (R10). -/
def allCells : List RegCell := [.ax, .cx, .dx, .bx, .sp, .bp, .si, .di]

/-- `Report(state)`, one string per line (R249): preceded by a notice after a decode failure, and no report at all where the
host sees no final state. -/
def report (s : State) : List String :=
  if isReported s then
    (if s.status = .stoppedUndecodable then [unrecognizedText] else []) ++
      (allCells.map fun c => reportLine (registerText c .full) (readCell s.regs c)) ++
      [reportLine "ip" s.ip, "flags: " ++ flagText s]
  else []

end Sys2Proof.Machine
end

