-- ==== Sys2Proof/Safety.lean ====
section
/-! DEFINITION. What claims speak of: the invariant of the machine, the fault states, and the conditions under which an
instruction completes. -/

namespace Sys2Proof

open Sys2Proof.Machine

/-- Memory is in its canonical form and the two flags are never both set (spec 43_arith.md R152). -/
abbrev Inv (s : State) : Prop := Memory.wf s.mem = true ∧ ¬(s.zf = true ∧ s.sf = true)

/-- STATUS holds a fatal fault (60_exceptions.md R261 codes 3, 4, 5). Such a state is never final (R262). -/
abbrev Faulted (s : State) : Prop := 3 ≤ statusCode s.status ∧ statusCode s.status ≤ 5

/-- The address after the instruction is a byte address (41_cycle.md R113). -/
abbrev NextInRange (f : Fields) (s : State) : Prop := s.ip.toNat + f.size ≤ 65535

/-- `s` with IP past an instruction of the given size (41_cycle.md R112). -/
def pastInstr (f : Fields) (s : State) : State := { s with ip := BitVec.ofNat 16 (s.ip.toNat + f.size) }

/-- The integer target of a jump or loop with offset `k` (44_jumps.md R160). -/
def branchTarget (f : Fields) (k : Byte) (s : State) : Int := ((s.ip.toNat + f.size : Nat) : Int) + k.toInt

/-- A branch target that is a byte address (44_jumps.md R180). -/
abbrev TargetInRange (f : Fields) (k : Byte) (s : State) : Prop :=
  0 ≤ branchTarget f k s ∧ branchTarget f k s ≤ 65535

/-- A record with the operand list of a jump or loop: one label offset (30_encoding.md R67). -/
abbrev HasOffset (f : Fields) (k : Byte) : Prop := f.dst = some (.labelOffset k) ∧ f.src = none

/-- A record with a structurally valid pair of operands (40_operands.md R100, R101). -/
abbrev HasPair (f : Fields) (d s : Operand) : Prop :=
  f.dst = some d ∧ f.src = some s ∧ validPair f.flags.wide d s = true

/-- The bytes of memory an operand's access touches, in state `s` (20_memory.md R33, R34). -/
def Touches (s : State) (wide : Bool) (o : Operand) (a : Nat) : Prop :=
  match o with
  | .memory ea => effectiveAddress s.regs ea ≤ (a : Int) ∧
      (a : Int) < effectiveAddress s.regs ea + (accessBytes wide : Int)
  | _ => False

/-- Whether a wired jump or loop branches from `s`: its predicate holds (44_jumps.md R167 to R179), or the counter after its
decrement is not zero and the extra condition on ZF holds (45_loops.md R190 to R193). Nothing else branches. -/
def branchTaken (s : State) : OperationTag → Bool
  | .je => s.zf
  | .jne => !s.zf
  | .js => s.sf
  | .jns => !s.sf
  | .jcxz => s.regs.cx == 0
  | .loop => s.regs.cx - 1 != 0
  | .loopz => s.regs.cx - 1 != 0 && s.zf
  | .loopnz => s.regs.cx - 1 != 0 && !s.zf
  | .jo | .jno | .jb | .jnb | .jbe | .ja | .jp | .jnp | .jl | .jnl | .jle | .jg => false
  | .movRmReg | .movImmRm | .movImmReg | .movMemToAcc | .movAccToMem => false
  | .addRmReg | .addImmRm | .addImmAcc | .subRmReg | .subImmRm | .subImmAcc => false
  | .cmpRmReg | .cmpImmRm | .cmpImmAcc | .hlt => false

/-- The operation of an `add`, `sub` or `cmp` (41_cycle.md R118). -/
def aluOpOf : OperationTag → Option AluOp
  | .addRmReg | .addImmRm | .addImmAcc => some .add
  | .subRmReg | .subImmRm | .subImmAcc => some .sub
  | .cmpRmReg | .cmpImmRm | .cmpImmAcc => some .cmp
  | .movRmReg | .movImmRm | .movImmReg | .movMemToAcc | .movAccToMem => none
  | .jo | .jno | .jb | .jnb | .je | .jne | .jbe | .ja | .js | .jns | .jp | .jnp | .jl | .jnl | .jle | .jg => none
  | .loopnz | .loopz | .loop | .jcxz | .hlt => none

end Sys2Proof
end

