-- ==== Sys2Proof/Certificates/Slice0/Obligations.lean ====
section
/-! DEFINITION. The statements for the provers. Each docstring names the rules of spec/ it formalises. A statement that rests
on one of the spec's own decisions (92_eei_decisions.md) or on a log entry says so. -/

open Sys2Proof Sys2Proof.Machine

/-! ### Encoding and decoding -/

/-- Decoding an encoded well-formed record gives it back, whatever bytes follow (30_encoding.md sections 2, 3, 5 and 7; the
opcode values are the spec's decision D1). -/
def Obligations.DecodeEncodeRoundTrip : Prop :=
  ∀ (i : Instr) (rest : List Byte), WellFormed i → decode (encode i ++ rest) = some i

/-- What the decoder returns is well formed, is 1 to 6 bytes long, lies in the window, and encodes to the very bytes it
consumed (30_encoding.md sections 1 and 2). -/
def Obligations.DecodedRecordReencodes : Prop :=
  ∀ (window : List Byte) (i : Instr), decode window = some i →
    WellFormed i ∧ 1 ≤ i.size ∧ i.size ≤ 6 ∧ i.size ≤ window.length ∧ encode i = window.take i.size

/-- Words written out from the spec's encodings decode to what they stand for (30_encoding.md section 5, the source's own
`B9 0C 00` among them). -/
def Obligations.WrittenWordsDecode : Prop :=
  decode [0xB9, 0x0C, 0x00] =
      some (.movImmReg ⟨some (.register .cx .full), some (.immediateData 12), ⟨true, true, false⟩, 3⟩) ∧
  decode [0x8B, 0x41, 0xDB] =
      some (.movRmReg ⟨some (.register .ax .full), some (.memory (.calculated .bxDi 0xFFDB)), ⟨true, true, false⟩, 3⟩) ∧
  decode [0xC7, 0x06, 0xE8, 0x03, 0x34, 0x12] =
      some (.movImmRm ⟨some (.memory (.direct 1000)), some (.immediateData 4660), ⟨true, false, false⟩, 6⟩) ∧
  decode [0xA2, 0x0F, 0x00] =
      some (.movAccToMem ⟨some (.memory (.direct 15)), some (.register .ax .low), ⟨false, false, false⟩, 3⟩) ∧
  decode [0x83, 0xC3, 0xFF] =
      some (.addImmRm ⟨some (.register .bx .full), some (.immediateData 65535), ⟨true, false, true⟩, 3⟩) ∧
  decode [0x2D, 0x34, 0x12] =
      some (.subImmAcc ⟨some (.register .ax .full), some (.immediateData 4660), ⟨true, true, false⟩, 3⟩) ∧
  decode [0x39, 0xCB] =
      some (.cmpRmReg ⟨some (.register .bx .full), some (.register .cx .full), ⟨true, false, false⟩, 2⟩) ∧
  decode [0x75, 0xFC] = some (.jne ⟨some (.labelOffset 0xFC), none, ⟨false, false, false⟩, 2⟩) ∧
  decode [0xE2, 0xFE] = some (.loop ⟨some (.labelOffset 0xFE), none, ⟨false, false, false⟩, 2⟩) ∧
  decode [0xF4] = some (.hlt ⟨none, none, ⟨false, false, false⟩, 1⟩)

/-- The values of byte 0 that begin no instruction are exactly the ranges R69 lists (30_encoding.md section 4; the values are
decision D1's). -/
def Obligations.FirstBytesThatNeverDecode : Prop :=
  ∀ b : Byte, (∀ rest, decode (b :: rest) = none) ↔
    ∃ r ∈ [(0x06, 0x27), (0x2E, 0x37), (0x3E, 0x6F), (0x84, 0x87), (0x8C, 0x9F), (0xA4, 0xAF),
           (0xC0, 0xC5), (0xC8, 0xDF), (0xE4, 0xF3), (0xF5, 0xFF)], r.1 ≤ b.toNat ∧ b.toNat ≤ r.2

/-- A reserved sub-dispatch field decodes to None whatever follows: 001, 010, 011, 100, 110 after 0x80 to 0x83, anything but
000 after 0xC6 and 0xC7 (30_encoding.md sections 5 and 6). -/
def Obligations.ReservedSubDispatchIsNone : Prop :=
  ∀ (b0 m : Byte) (rest : List Byte),
    (0x80 ≤ b0.toNat ∧ b0.toNat ≤ 0x83 ∧ regField m ≠ 0 ∧ regField m ≠ 5 ∧ regField m ≠ 7) ∨
      (0xC6 ≤ b0.toNat ∧ b0.toNat ≤ 0xC7 ∧ regField m ≠ 0) →
    decode (b0 :: m :: rest) = none

/-- An instruction cut short anywhere is not decoded (30_encoding.md section 6; the spec's decision D16). -/
def Obligations.CutInstructionIsNone : Prop :=
  ∀ (i : Instr) (k : Nat), WellFormed i → k < i.size → decode ((encode i).take k) = none

/-- R75: "The result depends on `B[o .. o+5]` and `L` only": two byte sequences that agree on the six bytes from their
offsets on decode alike. -/
def Obligations.DecodingIsPure : Prop :=
  ∀ (bytes other : List Byte) (o p : Nat), (bytes.drop o).take 6 = (other.drop p).take 6 →
    decodeAt bytes o = decodeAt other p

/-- The fetch decodes the whole memory at IP: the six bytes it looks at suffice (20_memory.md section 9, log entry 9). -/
def Obligations.FetchDecodesMemoryAtIp : Prop :=
  ∀ s : State, fetchDecode s = decodeAt (memoryImage s.mem) s.ip.toNat

/-! ### Registers, memory, operands -/

/-- R96: Full is the cell, Low its bits 7:0, High its bits 15:8. -/
def Obligations.RegisterReadRule : Prop :=
  ∀ (r : Regs) (c : RegCell), regRead r c .full = readCell r c ∧
    (regRead r c .low).toNat = (readCell r c).toNat % 256 ∧ (regRead r c .high).toNat = (readCell r c).toNat / 256

/-- R97: a Full write replaces the cell; a Low or High write takes the low 8 bits of the value and leaves the other byte and
every other cell unchanged; Low <- 0xAA, High <- 0xBB in either order gives 0xBBAA. -/
def Obligations.RegisterWriteRule : Prop :=
  ∀ (r : Regs) (c : RegCell) (v : Word),
    readCell (regWrite r c .full v) c = v ∧
    (readCell (regWrite r c .low v) c).toNat = (readCell r c).toNat / 256 * 256 + v.toNat % 256 ∧
    (readCell (regWrite r c .high v) c).toNat = v.toNat % 256 * 256 + (readCell r c).toNat % 256 ∧
    (∀ (a : Access) (d : RegCell), d ≠ c → readCell (regWrite r c a v) d = readCell r d) ∧
    regRead (regWrite (regWrite r c .low 0xAA) c .high 0xBB) c .full = 0xBBAA ∧
    regRead (regWrite (regWrite r c .high 0xBB) c .low 0xAA) c .full = 0xBBAA ∧
    regRead (regWrite (regWrite r c .low 0xAA) c .high 0xBB) c .low = 0xAA ∧
    regRead (regWrite (regWrite r c .low 0xAA) c .high 0xBB) c .high = 0xBB

/-- A memory read gives one byte, or two with the higher address more significant; any byte outside 0..65535 raises BoundsFault
(20_memory.md section 3; the byte order is decision D10). -/
def Obligations.MemReadRule : Prop :=
  ∀ (m : List Host.Cell) (a : Nat) (addr : Int),
    (a ≤ 65535 → memRead m (a : Int) false = .ok (BitVec.ofNat 16 (readByte m a).toNat)) ∧
    (a + 1 ≤ 65535 →
      memRead m (a : Int) true = .ok (BitVec.ofNat 16 ((readByte m (a + 1)).toNat * 256 + (readByte m a).toNat))) ∧
    (addr < 0 ∨ 65535 < addr → memRead m addr false = .error (.bounds addr)) ∧
    (addr < 0 ∨ 65535 < addr + 1 → memRead m addr true = .error (.bounds addr))

/-- A store in bounds writes its one or two bytes, the less significant at the lower address, and no other byte; one that is
not raises BoundsFault (20_memory.md section 3; that the check precedes both bytes is decision D17). -/
def Obligations.MemWriteChangesItsBytesOnly : Prop :=
  ∀ (m : List Host.Cell) (addr : Int) (wide : Bool) (v : Word),
    (0 ≤ addr ∧ addr + (accessBytes wide : Int) - 1 ≤ 65535 →
      ∃ m', memWrite m addr wide v = .ok m' ∧
        (readByte m' addr.toNat).toNat = v.toNat % 256 ∧
        (wide = true → (readByte m' (addr.toNat + 1)).toNat = v.toNat / 256) ∧
        ∀ a : Nat, (a : Int) < addr ∨ addr + (accessBytes wide : Int) ≤ (a : Int) → readByte m' a = readByte m a) ∧
    (¬(0 ≤ addr ∧ addr + (accessBytes wide : Int) - 1 ≤ 65535) → memWrite m addr wide v = .error (.bounds addr))

/-- The address of each base and of a direct reference, an integer that is not reduced modulo 65536, always in
-32768..163837 (40_operands.md sections 1 and 2, 20_memory.md section 6; no wrap is decision D9). -/
def Obligations.EffectiveAddressRule : Prop :=
  ∀ (r : Regs) (a d : Word),
    effectiveAddress r (.direct a) = a.toNat ∧
    effectiveAddress r (.calculated .bxSi d) = r.bx.toNat + r.si.toNat + d.toInt ∧
    effectiveAddress r (.calculated .bxDi d) = r.bx.toNat + r.di.toNat + d.toInt ∧
    effectiveAddress r (.calculated .bpSi d) = r.bp.toNat + r.si.toNat + d.toInt ∧
    effectiveAddress r (.calculated .bpDi d) = r.bp.toNat + r.di.toNat + d.toInt ∧
    effectiveAddress r (.calculated .si d) = r.si.toNat + d.toInt ∧
    effectiveAddress r (.calculated .di d) = r.di.toNat + d.toInt ∧
    effectiveAddress r (.calculated .bp d) = r.bp.toNat + d.toInt ∧
    effectiveAddress r (.calculated .bx d) = r.bx.toNat + d.toInt ∧
    ∀ ea : EffectiveAddress, -32768 ≤ effectiveAddress r ea ∧ effectiveAddress r ea ≤ 163837

/-- The access-aware read and write of an operand: a register through its view, an immediate as it is, memory by the wide
flag; a label raises OperandFault, and so does a write to an immediate (40_operands.md section 4). -/
def Obligations.OperandAccessRule : Prop :=
  ∀ (s : State) (w : Bool) (u v : Word) (c : RegCell) (a : Access) (ea : EffectiveAddress) (k : Byte),
    readOperand s w (.register c a) = .ok (regRead s.regs c a) ∧
    readOperand s w (.immediateData v) = .ok v ∧
    readOperand s w (.memory ea) = memRead s.mem (effectiveAddress s.regs ea) w ∧
    readOperand s w (.labelOffset k) = .error .operand ∧
    writeOperand s w v (.register c a) = .ok { s with regs := regWrite s.regs c a v } ∧
    (∀ m, memWrite s.mem (effectiveAddress s.regs ea) w v = .ok m →
      writeOperand s w v (.memory ea) = .ok { s with mem := m }) ∧
    (∀ e, memWrite s.mem (effectiveAddress s.regs ea) w v = .error e → writeOperand s w v (.memory ea) = .error e) ∧
    writeOperand s w v (.immediateData u) = .error .operand ∧
    writeOperand s w v (.labelOffset k) = .error .operand

/-- R101's list and R100's width agreement: a two-operand record with an absent, immediate or label destination, an absent or
label source, two memory operands or operands of differing widths, and a jump or loop without exactly one label, raise
OperandFault and commit nothing else (40_operands.md section 4; the widths are log entry 8's, that a fault commits nothing
else is decision D17). -/
def Obligations.InvalidOperandsFault : Prop :=
  ∀ (f : Fields) (s : State), NextInRange f s →
    ((∀ d src, f.dst = some d → f.src = some src →
        isDestination d = false ∨ (∃ k, src = .labelOffset k) ∨ (isMemory d = true ∧ isMemory src = true) ∨
          operandFits f.flags.wide d = false ∨ operandFits f.flags.wide src = false) →
      ∀ i ∈ [Instr.movRmReg f, .movImmRm f, .movImmReg f, .movMemToAcc f, .movAccToMem f,
             .addRmReg f, .addImmRm f, .addImmAcc f, .subRmReg f, .subImmRm f, .subImmAcc f,
             .cmpRmReg f, .cmpImmRm f, .cmpImmAcc f],
        exec i s = .next { s with status := .faultOperand }) ∧
    ((∀ k, ¬HasOffset f k) →
      ∀ i ∈ [Instr.jo f, .jno f, .jb f, .jnb f, .je f, .jne f, .jbe f, .ja f, .js f, .jns f, .jp f, .jnp f,
             .jl f, .jnl f, .jle f, .jg f, .jcxz f, .loop f, .loopz f, .loopnz f],
        exec i s = .next { s with status := .faultOperand })

/-- No byte sequence decodes to a record that raises OperandFault: its widths agree and its operands are valid
(40_operands.md section 4, 60_exceptions.md section 2). -/
def Obligations.DecodedRecordsNeverOperandFault : Prop :=
  ∀ (window : List Byte) (i : Instr) (s t : State), decode window = some i → s.status = .running →
    exec i s = .next t → t.status ≠ .faultOperand

/-! ### The step -/

/-- A step of a running machine is `exec` of the instruction that the bytes at IP decode to. That `exec` holds the whole
transition, from moving IP past the instruction to committing or raising, is the model's choice (log entry 10): the pseudocode of
41_cycle.md moves IP in the step, before it executes. -/
def Obligations.StepRunsDecodedInstruction : Prop :=
  ∀ (s : State) (i : Instr), s.status = .running → fetchDecode s = some i → step s = exec i s

/-- A stopped machine stays as it is, and a running one that does not decode stops with STOPPED_UNDECODABLE and nothing else
changed, IP included (41_cycle.md; IP at the byte is decision D7). -/
def Obligations.StepOfStoppedOrUndecodable : Prop :=
  ∀ s : State, (s.status ≠ .running → step s = .next s) ∧
    (s.status = .running → fetchDecode s = none → step s = .next { s with status := .stoppedUndecodable })

/-- Every instruction and every step answers a next state from every state: no fault and no refusal ends a run
(41_cycle.md, "exactly one outcome"; that faults are next states is log entry 2's choice). -/
def Obligations.EveryStepAnswers : Prop :=
  (∀ (i : Instr) (s : State), ∃ t, exec i s = .next t) ∧ ∀ s : State, ∃ t, step s = .next t

/-- Whatever stops the machine, by `hlt`, a decode failure or a fault, commits nothing but STATUS
(60_exceptions.md section 2, 46_hlt.md, 41_cycle.md; that a fault is precise is decision D17, that IP stays at a `hlt` and at a
decode failure is decision D7, log entry 5). -/
def Obligations.StopsCommitOnlyStatus : Prop :=
  ∀ s t : State, step s = .next t → t.status ≠ .running → t = { s with status := t.status }

/-- What a step of a running machine may leave in STATUS, and only then: HALTED for a `hlt`, STOPPED_UNDECODABLE where nothing
decodes, FAULT_UNIMPLEMENTED with the operation for one that is not wired, FAULT_BOUNDS with the integer for an IP advance past
65535, a memory operand out of bounds or the target of a taken branch outside 0..65535; FAULT_OPERAND and LOAD_REFUSED never
(10_state.md section 4, 60_exceptions.md sections 1 and 2, 41_cycle.md, 44_jumps.md, 45_loops.md; the codes are decision D17, the
bounds D6, D8 and D9, the predicates D28 and D32, the counter's wrap D12). -/
def Obligations.StatusIsSetByItsCause : Prop :=
  ∀ s t : State, s.status = .running → step s = .next t →
    (t.status = .halted ↔ ∃ f, fetchDecode s = some (.hlt f)) ∧
    (t.status = .stoppedUndecodable ↔ fetchDecode s = none) ∧
    (∀ op, t.status = .faultUnimplemented op →
      ∃ i, fetchDecode s = some i ∧ i.operation = op ∧ isWired s.wired op = false) ∧
    (∀ a, t.status = .faultBounds a → ∃ i, fetchDecode s = some i ∧ i.operation ≠ .hlt ∧
      ((¬NextInRange i.fields s ∧ a = ((s.ip.toNat + i.size : Nat) : Int)) ∨
        (∃ ea, (i.fields.dst = some (.memory ea) ∨ i.fields.src = some (.memory ea)) ∧
          inBounds (effectiveAddress s.regs ea) i.fields.flags.wide = false ∧ a = effectiveAddress s.regs ea) ∨
        ∃ k, HasOffset i.fields k ∧ isWired s.wired i.operation = true ∧ branchTaken s i.operation = true ∧
          ¬TargetInRange i.fields k s ∧ a = branchTarget i.fields k s)) ∧
    t.status ≠ .faultOperand ∧ t.status ≠ .loadRefused

/-- Every step keeps the invariant: memory stays in its canonical form inside 0..65535, and ZF and SF are never both set
(43_arith.md section 1, 20_memory.md section 1; the canonical form is log entry 6's). -/
def Obligations.StepKeepsInvariant : Prop :=
  ∀ s t : State, Inv s → step s = .next t → Inv t

/-- The state after reset, which is the load of the empty program (log entry 3) with its zeros (decision D15), meets the
invariant: its flags are clear and its memory is in canonical form (log entry 6's choice; 10_state.md section 8). -/
def Obligations.ResetMeetsInvariant : Prop := Inv State.reset

/-- A load that is accepted gives a state that meets the invariant, from any state: the flags are clear (decision D15) and
memory is in canonical form (log entry 6's choice; 70_reset_and_hazards.md section 1). -/
def Obligations.LoadEstablishesInvariant : Prop :=
  ∀ (s : State) (program : List Byte), program.length ≤ 65535 → Inv (load s program)

/-- No step and no load writes the parameter WIRED (10_state.md section 7; where it is carried is log entry 1's). -/
def Obligations.WiredIsNeverWritten : Prop :=
  (∀ s t : State, step s = .next t → t.wired = s.wired) ∧
    ∀ (s : State) (program : List Byte), (load s program).wired = s.wired

/-- WIRED matters only through whether the executed operation is in it: two choices that agree on that operation give the
same transition (44_jumps.md section 1). -/
def Obligations.OnlyTheOperationsWiringMatters : Prop :=
  ∀ (i : Instr) (s t : State) (w : Wired), isWired w i.operation = isWired s.wired i.operation →
    exec i s = .next t → exec i { s with wired := w } = .next { t with wired := w }

/-- No instruction but `add`, `sub` and `cmp` changes a flag (10_state.md section 3; for jumps, loops and `hlt` this is
decision D28). -/
def Obligations.OnlyArithmeticWritesFlags : Prop :=
  ∀ (i : Instr) (s t : State), aluOpOf i.operation = none → exec i s = .next t → t.zf = s.zf ∧ t.sf = s.sf

/-- After a step that leaves the machine running, IP has advanced by exactly the decoded size, or stands at the target of a
jump or loop: it never wraps (10_state.md section 2, 41_cycle.md; no wrap is decisions D6 and D8). -/
def Obligations.IpAdvancesOrBranches : Prop :=
  ∀ s t : State, s.status = .running → step s = .next t → t.status = .running →
    ∃ i, fetchDecode s = some i ∧
      (t.ip.toNat = s.ip.toNat + i.size ∨
        ∃ k, HasOffset i.fields k ∧ (t.ip.toNat : Int) = branchTarget i.fields k s)

/-- An instruction other than `hlt` whose successor would start past 65535 raises BoundsFault with that index and is not
executed (41_cycle.md; decision D6; that a fault commits nothing else is decision D17). -/
def Obligations.AdvancePastTheTopFaults : Prop :=
  ∀ (f : Fields) (s : State), ¬NextInRange f s →
    ∀ i : Instr, i.fields = f → i.operation ≠ .hlt →
      exec i s = .next { s with status := .faultBounds ((s.ip.toNat + f.size : Nat) : Int) }

/-! ### mov -/

/-- Every `mov` whose operands are accessible stores the source's value through the destination's own width, with IP past the
instruction, and changes nothing else (42_mov.md, the common semantics). -/
def Obligations.MovStoresSource : Prop :=
  ∀ (f : Fields) (s : State) (d src : Operand), HasPair f d src → NextInRange f s →
    accessible s f.flags.wide d = true → accessible s f.flags.wide src = true →
    ∀ i ∈ [Instr.movRmReg f, .movImmRm f, .movImmReg f, .movMemToAcc f, .movAccToMem f],
      exec i s = .next (storeOperand { s with ip := BitVec.ofNat 16 (s.ip.toNat + f.size) } f.flags.wide
        (operandValue s f.flags.wide src) d)

/-- What a `mov` leaves unchanged: the flags, WIRED, every cell but the destination's and the other byte of a byte
destination, every byte of memory but those stored to (42_mov.md, the common semantics). -/
def Obligations.MovFrame : Prop :=
  ∀ (f : Fields) (s t : State),
    ∀ i ∈ [Instr.movRmReg f, .movImmRm f, .movImmReg f, .movMemToAcc f, .movAccToMem f], exec i s = .next t →
      t.zf = s.zf ∧ t.sf = s.sf ∧ t.wired = s.wired ∧ (t.status = s.status ∨ Faulted t) ∧
      (∀ c, (∀ a, f.dst ≠ some (.register c a)) → readCell t.regs c = readCell s.regs c) ∧
      (∀ c, f.dst = some (.register c .low) → hiByte (readCell t.regs c) = hiByte (readCell s.regs c)) ∧
      (∀ c, f.dst = some (.register c .high) → loByte (readCell t.regs c) = loByte (readCell s.regs c)) ∧
      (∀ a, (∀ d, f.dst = some d → ¬Touches s f.flags.wide d a) → readByte t.mem a = readByte s.mem a)

/-- A `mov` with a memory operand out of 0..65535 raises BoundsFault with the effective address and writes nothing
(42_mov.md, 20_memory.md section 6; no wrap of the address is decision D9, that IP stays is decision D17). -/
def Obligations.MovOutOfBoundsFaults : Prop :=
  ∀ (f : Fields) (s : State) (d src : Operand) (ea : EffectiveAddress), HasPair f d src → NextInRange f s →
    (d = .memory ea ∨ src = .memory ea) → inBounds (effectiveAddress s.regs ea) f.flags.wide = false →
    ∀ i ∈ [Instr.movRmReg f, .movImmRm f, .movImmReg f, .movMemToAcc f, .movAccToMem f],
      exec i s = .next { s with status := .faultBounds (effectiveAddress s.regs ea) }

/-! ### add, sub, cmp -/

/-- Every `add` whose operands are accessible stores the sum through the destination's width and takes ZF and SF from the
stored value at that width (43_arith.md section 1; wrapping is decision D12). -/
def Obligations.AddStoresSumAndFlags : Prop :=
  ∀ (f : Fields) (s : State) (d src : Operand), HasPair f d src → NextInRange f s →
    accessible s f.flags.wide d = true → accessible s f.flags.wide src = true →
    ∀ i ∈ [Instr.addRmReg f, .addImmRm f, .addImmAcc f], ∀ r : Word,
      r = operandValue s f.flags.wide d + operandValue s f.flags.wide src →
      exec i s = .next
        { storeOperand { s with ip := BitVec.ofNat 16 (s.ip.toNat + f.size) } f.flags.wide r d with
          zf := if f.flags.wide then r == 0 else loByte r == 0
          sf := if f.flags.wide then r.msb else (loByte r).msb }

/-- Every `sub` whose operands are accessible stores the difference, destination minus source, and takes the flags from the
stored value (43_arith.md section 1; wrapping is decision D12). -/
def Obligations.SubStoresDifferenceAndFlags : Prop :=
  ∀ (f : Fields) (s : State) (d src : Operand), HasPair f d src → NextInRange f s →
    accessible s f.flags.wide d = true → accessible s f.flags.wide src = true →
    ∀ i ∈ [Instr.subRmReg f, .subImmRm f, .subImmAcc f], ∀ r : Word,
      r = operandValue s f.flags.wide d - operandValue s f.flags.wide src →
      exec i s = .next
        { storeOperand { s with ip := BitVec.ofNat 16 (s.ip.toNat + f.size) } f.flags.wide r d with
          zf := if f.flags.wide then r == 0 else loByte r == 0
          sf := if f.flags.wide then r.msb else (loByte r).msb }

/-- Every `cmp` whose operands are accessible writes the flags of the difference and stores nothing
(43_arith.md section 1; wrapping is decision D12). -/
def Obligations.CmpWritesFlagsOnly : Prop :=
  ∀ (f : Fields) (s : State) (d src : Operand), HasPair f d src → NextInRange f s →
    accessible s f.flags.wide d = true → accessible s f.flags.wide src = true →
    ∀ i ∈ [Instr.cmpRmReg f, .cmpImmRm f, .cmpImmAcc f], ∀ r : Word,
      r = operandValue s f.flags.wide d - operandValue s f.flags.wide src →
      exec i s = .next
        { s with
          ip := BitVec.ofNat 16 (s.ip.toNat + f.size)
          zf := if f.flags.wide then r == 0 else loByte r == 0
          sf := if f.flags.wide then r.msb else (loByte r).msb }

/-- What `add` and `sub` leave unchanged: every cell but the destination's, the other byte of a byte destination, every byte
of memory but those stored to, and WIRED (43_arith.md section 1). -/
def Obligations.AddSubFrame : Prop :=
  ∀ (f : Fields) (s t : State),
    ∀ i ∈ [Instr.addRmReg f, .addImmRm f, .addImmAcc f, .subRmReg f, .subImmRm f, .subImmAcc f], exec i s = .next t →
      t.wired = s.wired ∧ (t.status = s.status ∨ Faulted t) ∧
      (∀ c, (∀ a, f.dst ≠ some (.register c a)) → readCell t.regs c = readCell s.regs c) ∧
      (∀ c, f.dst = some (.register c .low) → hiByte (readCell t.regs c) = hiByte (readCell s.regs c)) ∧
      (∀ c, f.dst = some (.register c .high) → loByte (readCell t.regs c) = loByte (readCell s.regs c)) ∧
      (∀ a, (∀ d, f.dst = some d → ¬Touches s f.flags.wide d a) → readByte t.mem a = readByte s.mem a)

/-- What `cmp` leaves unchanged: every cell, every byte of memory, and WIRED (43_arith.md sections 1 and 4). -/
def Obligations.CmpFrame : Prop :=
  ∀ (f : Fields) (s t : State),
    ∀ i ∈ [Instr.cmpRmReg f, .cmpImmRm f, .cmpImmAcc f], exec i s = .next t →
      t.regs = s.regs ∧ t.mem = s.mem ∧ t.wired = s.wired ∧ (t.status = s.status ∨ Faulted t)

/-- An `add`, `sub` or `cmp` with a memory operand out of 0..65535 raises BoundsFault with the effective address; neither the
destination nor a flag changes (43_arith.md section 1; no wrap of the address is decision D9, that IP stays is decision
D17). -/
def Obligations.ArithOutOfBoundsFaults : Prop :=
  ∀ (f : Fields) (s : State) (d src : Operand) (ea : EffectiveAddress), HasPair f d src → NextInRange f s →
    (d = .memory ea ∨ src = .memory ea) → inBounds (effectiveAddress s.regs ea) f.flags.wide = false →
    ∀ i ∈ [Instr.addRmReg f, .addImmRm f, .addImmAcc f, .subRmReg f, .subImmRm f, .subImmAcc f,
           .cmpRmReg f, .cmpImmRm f, .cmpImmAcc f],
      exec i s = .next { s with status := .faultBounds (effectiveAddress s.regs ea) }

/-- At either width W the stored bits are the operands' sum or difference modulo 2^W: the upper bits of the 16-bit
intermediate never matter to an 8-bit result (43_arith.md section 1). -/
def Obligations.ArithmeticIsModuloTheWidth : Prop :=
  ∀ d s : Word,
    (aluResult .add d s).toNat = (d.toNat + s.toNat) % 65536 ∧
    (aluResult .sub d s).toNat = (d.toNat + 65536 - s.toNat) % 65536 ∧
    aluResult .cmp d s = aluResult .sub d s ∧
    (truncated false (aluResult .add d s)).toNat = (d.toNat % 256 + s.toNat % 256) % 256 ∧
    (truncated false (aluResult .sub d s)).toNat = (d.toNat % 256 + 256 - s.toNat % 256) % 256

/-! ### Jumps -/

/-- A wired jump whose predicate holds goes to its own address plus its size plus the signed offset, and changes nothing but
IP (44_jumps.md sections 1 and 2; the predicates are decision D32, `jcxz` decision D28). -/
def Obligations.WiredJumpTaken : Prop :=
  ∀ (f : Fields) (k : Byte) (s : State), HasOffset f k → NextInRange f s → TargetInRange f k s →
    ∀ t : State, t = { s with ip := BitVec.ofInt 16 (branchTarget f k s) } →
      (s.wired.je = true → s.zf = true → exec (.je f) s = .next t) ∧
      (s.wired.jne = true → s.zf = false → exec (.jne f) s = .next t) ∧
      (s.wired.js = true → s.sf = true → exec (.js f) s = .next t) ∧
      (s.wired.jns = true → s.sf = false → exec (.jns f) s = .next t) ∧
      (s.wired.jcxz = true → s.regs.cx = 0 → exec (.jcxz f) s = .next t)

/-- A wired jump whose predicate does not hold moves IP past itself, whatever its target is, and changes nothing else
(44_jumps.md sections 1 and 2; the predicates are decision D32, `jcxz` decision D28). -/
def Obligations.WiredJumpNotTaken : Prop :=
  ∀ (f : Fields) (k : Byte) (s : State), HasOffset f k → NextInRange f s →
    ∀ t : State, t = { s with ip := BitVec.ofNat 16 (s.ip.toNat + f.size) } →
      (s.wired.je = true → s.zf = false → exec (.je f) s = .next t) ∧
      (s.wired.jne = true → s.zf = true → exec (.jne f) s = .next t) ∧
      (s.wired.js = true → s.sf = false → exec (.js f) s = .next t) ∧
      (s.wired.jns = true → s.sf = true → exec (.jns f) s = .next t) ∧
      (s.wired.jcxz = true → s.regs.cx ≠ 0 → exec (.jcxz f) s = .next t)

/-- A taken jump or loop whose target is outside 0..65535 raises BoundsFault with the target; IP keeps its value and a loop's
decrement is undone (44_jumps.md sections 1 and 2, 45_loops.md; the bound is decision D8, that nothing else is committed D17, the
predicates D32, `jcxz` D28, that a counter of 0 wraps and branches D12, log entry 5). -/
def Obligations.BranchOutOfBoundsFaults : Prop :=
  ∀ (f : Fields) (k : Byte) (s : State), HasOffset f k → NextInRange f s → ¬TargetInRange f k s →
    ∀ t : State, t = { s with status := .faultBounds (branchTarget f k s) } →
      (s.wired.je = true → s.zf = true → exec (.je f) s = .next t) ∧
      (s.wired.jne = true → s.zf = false → exec (.jne f) s = .next t) ∧
      (s.wired.js = true → s.sf = true → exec (.js f) s = .next t) ∧
      (s.wired.jns = true → s.sf = false → exec (.jns f) s = .next t) ∧
      (s.wired.jcxz = true → s.regs.cx = 0 → exec (.jcxz f) s = .next t) ∧
      (s.regs.cx ≠ 1 → exec (.loop f) s = .next t) ∧
      (s.wired.loopz = true → s.regs.cx ≠ 1 → s.zf = true → exec (.loopz f) s = .next t) ∧
      (s.wired.loopnz = true → s.regs.cx ≠ 1 → s.zf = false → exec (.loopnz f) s = .next t)

/-- R162: executing a jump or loop that is not in WIRED raises UnimplementedFault with the operation; nothing but STATUS
changes, IP and the counter included. -/
def Obligations.UnwiredOperationFaults : Prop :=
  ∀ (i : Instr) (k : Byte) (s : State), i.operation.format = .rel8 → isWired s.wired i.operation = false →
    HasOffset i.fields k → NextInRange i.fields s →
    exec i s = .next { s with status := .faultUnimplemented i.operation }

/-- The twelve jumps that need carry, overflow or parity raise UnimplementedFault under every WIRED and all flags, and change
nothing but STATUS (44_jumps.md section 3; that no WIRED holds them is decision D4's upper bound). -/
def Obligations.NeverWiredJumpsFault : Prop :=
  ∀ (f : Fields) (k : Byte) (s : State), HasOffset f k → NextInRange f s →
    exec (.jo f) s = .next { s with status := .faultUnimplemented .jo } ∧
    exec (.jno f) s = .next { s with status := .faultUnimplemented .jno } ∧
    exec (.jb f) s = .next { s with status := .faultUnimplemented .jb } ∧
    exec (.jnb f) s = .next { s with status := .faultUnimplemented .jnb } ∧
    exec (.jbe f) s = .next { s with status := .faultUnimplemented .jbe } ∧
    exec (.ja f) s = .next { s with status := .faultUnimplemented .ja } ∧
    exec (.jp f) s = .next { s with status := .faultUnimplemented .jp } ∧
    exec (.jnp f) s = .next { s with status := .faultUnimplemented .jnp } ∧
    exec (.jl f) s = .next { s with status := .faultUnimplemented .jl } ∧
    exec (.jnl f) s = .next { s with status := .faultUnimplemented .jnl } ∧
    exec (.jle f) s = .next { s with status := .faultUnimplemented .jle } ∧
    exec (.jg f) s = .next { s with status := .faultUnimplemented .jg }

/-- What the seventeen jumps leave unchanged: every cell, every byte of memory, both flags and WIRED; only IP, or STATUS when
the jump faults, may change (44_jumps.md section 1; the flags are decision D28). -/
def Obligations.JumpFrame : Prop :=
  ∀ (f : Fields) (s t : State),
    ∀ i ∈ [Instr.jo f, .jno f, .jb f, .jnb f, .je f, .jne f, .jbe f, .ja f, .js f, .jns f, .jp f, .jnp f,
           .jl f, .jnl f, .jle f, .jg f, .jcxz f], exec i s = .next t →
      t.regs = s.regs ∧ t.mem = s.mem ∧ t.zf = s.zf ∧ t.sf = s.sf ∧ t.wired = s.wired ∧
        (t.status = s.status ∨ Faulted t)

/-! ### Loops -/

/-- A loop that branches: `cx` is one less modulo 65536 and not zero after it, the extra condition on ZF holds, and IP goes to
the loop's address plus its size plus the signed offset (45_loops.md; the wrap is decision D12, the conditions on ZF D32). -/
def Obligations.LoopBranches : Prop :=
  ∀ (f : Fields) (k : Byte) (s : State), HasOffset f k → NextInRange f s → TargetInRange f k s → s.regs.cx ≠ 1 →
    ∀ t : State, t = { s with regs := { s.regs with cx := s.regs.cx - 1 },
                              ip := BitVec.ofInt 16 (branchTarget f k s) } →
      exec (.loop f) s = .next t ∧
      (s.wired.loopz = true → s.zf = true → exec (.loopz f) s = .next t) ∧
      (s.wired.loopnz = true → s.zf = false → exec (.loopnz f) s = .next t)

/-- A loop that falls through: the decremented `cx` is zero or the condition on ZF fails; the counter is decremented all the
same and IP moves past the loop (45_loops.md; the conditions on ZF are decision D32). -/
def Obligations.LoopFallsThrough : Prop :=
  ∀ (f : Fields) (k : Byte) (s : State), HasOffset f k → NextInRange f s →
    ∀ t : State, t = { s with regs := { s.regs with cx := s.regs.cx - 1 },
                              ip := BitVec.ofNat 16 (s.ip.toNat + f.size) } →
      (s.regs.cx = 1 → exec (.loop f) s = .next t) ∧
      (s.wired.loopz = true → s.regs.cx = 1 ∨ s.zf = false → exec (.loopz f) s = .next t) ∧
      (s.wired.loopnz = true → s.regs.cx = 1 ∨ s.zf = true → exec (.loopnz f) s = .next t)

/-- What the loops leave unchanged: every cell but `cx`, every byte of memory, both flags and WIRED
(45_loops.md; the flags are decision D28). -/
def Obligations.LoopFrame : Prop :=
  ∀ (f : Fields) (s t : State), ∀ i ∈ [Instr.loop f, .loopz f, .loopnz f], exec i s = .next t →
    (∀ c, c ≠ .cx → readCell t.regs c = readCell s.regs c) ∧ t.mem = s.mem ∧ t.zf = s.zf ∧ t.sf = s.sf ∧
      t.wired = s.wired ∧ (t.status = s.status ∨ Faulted t)

/-! ### hlt, stopping, reset and load -/

/-- `hlt` sets STATUS to HALTED and changes nothing else, IP included, at every address (46_hlt.md; IP is decision D7). -/
def Obligations.HltHalts : Prop :=
  ∀ (f : Fields) (s : State), exec (.hlt f) s = .next { s with status := .halted }

/-- A machine that has stopped, however it stopped, never moves again: only a load restarts it (41_cycle.md, 46_hlt.md,
60_exceptions.md section 5). -/
def Obligations.StoppedMachineNeverMoves : Prop :=
  ∀ (n : Nat) (s : State), s.status ≠ .running → runFor n s = s

/-- The state after reset: cells, IP and flags zero, RUNNING, the sentinel at address 0 and 0x00 everywhere else, and the
default WIRED (10_state.md section 8; zeros are decision D15, the empty program is log entry 3's choice, WIRED entry 1's). -/
def Obligations.ResetState : Prop :=
  (∀ c, readCell State.reset.regs c = 0) ∧ State.reset.ip = 0 ∧ State.reset.zf = false ∧ State.reset.sf = false ∧
    State.reset.status = .running ∧ readByte State.reset.mem 0 = 0xF4 ∧
    (∀ a, a ≠ 0 → readByte State.reset.mem a = 0) ∧
    State.reset.wired = ⟨true, true, true, true, false, true, true⟩ ∧ load State.reset [] = State.reset

/-- A load of a program of at most 65535 bytes, from any state: the program at 0, the sentinel `hlt` after it, 0x00 above,
cells, IP and flags zero, RUNNING (70_reset_and_hazards.md section 1; zeros are decision D15). -/
def Obligations.LoadPlacesProgramAndSentinel : Prop :=
  ∀ (s : State) (program : List Byte), program.length ≤ 65535 → ∀ t : State, t = load s program →
    (∀ a (h : a < program.length), readByte t.mem a = program[a]) ∧
    readByte t.mem program.length = 0xF4 ∧
    (∀ a, program.length < a → a ≤ 65535 → readByte t.mem a = 0) ∧
    (∀ c, readCell t.regs c = 0) ∧ t.ip = 0 ∧ t.zf = false ∧ t.sf = false ∧ t.status = .running

/-- A program of more than 65535 bytes is refused: STATUS is LOAD_REFUSED, every other field is as it was, and steps do nothing
(60_exceptions.md section 2, 70_reset_and_hazards.md section 1; the refusal is decision D15, that nothing else changes is log entry
7's choice). -/
def Obligations.TooLongProgramIsRefused : Prop :=
  ∀ (s : State) (program : List Byte), 65535 < program.length →
    load s program = { s with status := .loadRefused } ∧ step (load s program) = .next (load s program)

/-- A running machine whose IP stands at a byte 0xF4, the sentinel for one, halts there with nothing else changed, at every
address up to 0xFFFF (70_reset_and_hazards.md section 1, 46_hlt.md; the byte's value is decision D1, IP decision D7). -/
def Obligations.SentinelHalts : Prop :=
  ∀ s : State, s.status = .running → readByte s.mem s.ip.toNat = 0xF4 →
    step s = .next { s with status := .halted }

/-- A store is seen by the very next fetch: after a byte is written, the fetch at any IP sees it at its place and every other
byte as before (20_memory.md section 8). -/
def Obligations.StoreIsFetchedNext : Prop :=
  ∀ (s : State) (a k : Nat) (v : Byte), k < 6 → s.ip.toNat + k ≤ 65535 →
    (fetchWindow { s with mem := writeByte s.mem a v })[k]? =
      some (if a = s.ip.toNat + k then v else readByte s.mem (s.ip.toNat + k))

/-! ### Text, trace and report -/

/-- The displacement term: nothing for zero, else the sign and the magnitude of the two's-complement value
(47_formatter.md section 2; decision D22). -/
def Obligations.DisplacementTextRule : Prop :=
  (∀ d : Word, d.toInt = 0 → dispText d = "") ∧
    (∀ n : Nat, 0 < n → n < 32768 → dispText (BitVec.ofNat 16 n) = " + " ++ toString n) ∧
    (∀ n : Nat, 0 < n → n ≤ 32768 → dispText (BitVec.ofInt 16 (-(n : Int))) = " - " ++ toString n)

/-- The disassembly sweep: a placeholder and one byte on where nothing decodes, else the instruction's line and its size on
(47_formatter.md section 3). -/
def Obligations.DisassemblySweepRule : Prop :=
  ∀ (b : Byte) (rest : List Byte),
    sweep (b :: rest) 0 =
      match decode (b :: rest) with
      | none => "unrecognized instruction" :: sweep rest 0
      | some i => formatText i :: sweep ((b :: rest).drop i.size) 0

/-- Strings the spec works out: the source's `mov cx, 12`, displacement signs, size specifiers, labels, a trace line
(47_formatter.md, 48_interfaces.md section 3; the lexical choices are decisions D20 to D24). -/
def Obligations.WorkedTexts : Prop :=
  (decode [0xB9, 0x0C, 0x00]).map formatText = some "mov cx, 12" ∧
  (decode [0x8B, 0x47, 0xFF]).map formatText = some "mov ax, [bx - 1]" ∧
  (decode [0x8B, 0x47, 0x02]).map formatText = some "mov ax, [bx + 2]" ∧
  (decode [0x8B, 0x46, 0x00]).map formatText = some "mov ax, [bp]" ∧
  (decode [0x80, 0x3E, 0xE2, 0x12, 0x1D]).map formatText = some "cmp byte [4834], 29" ∧
  (decode [0x75, 0xFC]).map formatText = some "jne $-2" ∧
  stepTrace (load State.reset [0xB9, 0x0C, 0x00]) = some "mov cx, 12 ; cx:0x0->0xc ip:0x0->0x3"

/-- A trace line is emitted exactly for a step that executes an instruction and leaves the machine running
(48_interfaces.md section 3; decision D24). -/
def Obligations.TraceOnlyOfExecutedSteps : Prop :=
  ∀ (s : State) (line : String), stepTrace s = some line ↔
    ∃ i t, s.status = .running ∧ fetchDecode s = some i ∧ step s = .next t ∧ t.status = .running ∧
      line = traceLine i s t

/-- What the host sees of a run: the state after HALTED or STOPPED_UNDECODABLE and its report, ten lines after the former and
eleven after the latter; nothing of a run that goes on, faulted or was refused (48_interfaces.md sections 1 and 4,
41_cycle.md; the report's form is decision D25). -/
def Obligations.OnlyEndedRunsAreReported : Prop :=
  ∀ s : State,
    (s.status = .halted → observe s = some ⟨s.regs, s.ip, s.zf, s.sf, s.status, s.mem⟩ ∧ (report s).length = 10) ∧
    (s.status = .stoppedUndecodable →
      observe s = some ⟨s.regs, s.ip, s.zf, s.sf, s.status, s.mem⟩ ∧ (report s).length = 11) ∧
    (s.status = .running ∨ Faulted s ∨ s.status = .loadRefused → observe s = none ∧ report s = [])
end

