-- ==== Sys2Proof/Laws/Bits.lean ====
section
/-! SUPPORT. Small lemmas of the bit and byte helpers. -/

namespace Sys2Proof.Machine

theorem getLsbD_wordOf (hi lo : Byte) (i : Nat) :
    (wordOf hi lo).getLsbD i = if i < 8 then lo.getLsbD i else hi.getLsbD (i - 8) :=
  BitVec.getLsbD_append (x := hi) (y := lo)

@[simp] theorem loByte_wordOf (hi lo : Byte) : loByte (wordOf hi lo) = lo := by
  apply BitVec.eq_of_getLsbD_eq
  intro i h
  simp [loByte, getLsbD_wordOf, h]

@[simp] theorem hiByte_wordOf (hi lo : Byte) : hiByte (wordOf hi lo) = hi := by
  apply BitVec.eq_of_getLsbD_eq
  intro i h
  simp [hiByte, getLsbD_wordOf, h]

@[simp] theorem wordOf_hiByte_loByte (w : Word) : wordOf (hiByte w) (loByte w) = w := by
  apply BitVec.eq_of_getLsbD_eq
  intro i h
  by_cases h8 : i < 8
  · simp [getLsbD_wordOf, loByte, h8]
  · have e : 8 + (i - 8) = i := by omega
    have e' : i - 8 < 8 := by omega
    simp [getLsbD_wordOf, hiByte, h8, e, e']

@[simp] theorem loByte_zextByte (b : Byte) : loByte (zextByte b) = b := by revert b; decide

@[simp] theorem hiByte_zextByte (b : Byte) : hiByte (zextByte b) = 0 := by revert b; decide

@[simp] theorem loByte_sextByte (b : Byte) : loByte (sextByte b) = b := by revert b; decide

@[simp] theorem modField_modRmByte (m : BitVec 2) (reg rm : BitVec 3) : modField (modRmByte m reg rm) = m := by
  revert m reg rm; decide

@[simp] theorem regField_modRmByte (m : BitVec 2) (reg rm : BitVec 3) : regField (modRmByte m reg rm) = reg := by
  revert m reg rm; decide

@[simp] theorem rmField_modRmByte (m : BitVec 2) (reg rm : BitVec 3) : rmField (modRmByte m reg rm) = rm := by
  revert m reg rm; decide

@[simp] theorem modRmByte_fields (m : Byte) : modRmByte (modField m) (regField m) (rmField m) = m := by
  revert m; decide

@[simp] theorem cellOf_cellCode (c : RegCell) : cellOf (cellCode c) = c := by cases c <;> rfl

@[simp] theorem cellCode_cellOf (n : BitVec 3) : cellCode (cellOf n) = n := by revert n; decide

@[simp] theorem baseOf_baseCode (b : Base) : baseOf (baseCode b) = b := by cases b <;> rfl

@[simp] theorem baseCode_baseOf (n : BitVec 3) : baseCode (baseOf n) = n := by revert n; decide

end Sys2Proof.Machine
end

