-- ==== Sys2Proof/Laws/Decode.lean ====
section
/-! SUPPORT. What each part of the decoder gives on each part of an encoding, and which part byte 0 selects. -/

namespace Sys2Proof

open Sys2Proof.Machine

@[simp] theorem ofTag_operation (t : OperationTag) (f : Fields) : (Instr.ofTag t f).operation = t := by
  cases t <;> rfl

@[simp] theorem ofTag_fields (t : OperationTag) (f : Fields) : (Instr.ofTag t f).fields = f := by cases t <;> rfl

@[simp] theorem ofTag_eta (i : Instr) : Instr.ofTag i.operation i.fields = i := by cases i <;> rfl

@[simp] theorem ofTag_size (t : OperationTag) (f : Fields) : (Instr.ofTag t f).size = f.size := by cases t <;> rfl

/-! ### Byte 0 -/

theorem decodeFrom_rmReg (tag : OperationTag) (d w : Bool) (window : List Byte) (h : tag.format = .rmReg) :
    decodeFrom (opcodeBase tag ||| bitAt d 1 ||| bitAt w 0) window =
      decodeRmReg tag (opcodeBase tag ||| bitAt d 1 ||| bitAt w 0) window := by
  cases tag <;> cases h <;> cases d <;> cases w <;> rfl

theorem decodeFrom_immRm (tag : OperationTag) (s w : Bool) (window : List Byte) (h : tag.format = .immRm) :
    decodeFrom (opcodeBase tag ||| bitAt s 1 ||| bitAt w 0) window =
      decodeImmRm (opcodeBase tag ||| bitAt s 1 ||| bitAt w 0) window := by
  cases tag <;> cases h <;> cases s <;> cases w <;> rfl

theorem decodeFrom_movImmRm (w : Bool) (window : List Byte) :
    decodeFrom (opcodeBase .movImmRm ||| bitAt w 0) window =
      decodeMovImmRm (opcodeBase .movImmRm ||| bitAt w 0) window := by
  cases w <;> rfl

theorem decodeFrom_immReg (w : Bool) (reg : BitVec 3) (window : List Byte) :
    decodeFrom (opcodeBase .movImmReg ||| bitAt w 3 ||| reg.setWidth 8) window =
      decodeImmReg (opcodeBase .movImmReg ||| bitAt w 3 ||| reg.setWidth 8) window := by
  have h : (opcodeBase .movImmReg ||| bitAt w 3 ||| reg.setWidth 8).extractLsb' 4 4 = 0b1011#4 := by
    revert w reg; decide
  simp only [decodeFrom, h, if_true]

theorem decodeFrom_immAcc (tag : OperationTag) (w : Bool) (window : List Byte) (h : tag.format = .immAcc) :
    decodeFrom (opcodeBase tag ||| bitAt w 0) window = decodeImmAcc tag (opcodeBase tag ||| bitAt w 0) window := by
  cases tag <;> cases h <;> cases w <;> rfl

theorem decodeFrom_memAcc (tag : OperationTag) (w : Bool) (window : List Byte) (h : tag.format = .memAcc) :
    decodeFrom (opcodeBase tag ||| bitAt w 0) window = decodeMemAcc (opcodeBase tag ||| bitAt w 0) window := by
  cases tag <;> cases h <;> cases w <;> rfl

theorem decodeFrom_rel8 (tag : OperationTag) (window : List Byte) (h : tag.format = .rel8) :
    decodeFrom (opcodeBase tag) window = decodeRel8 tag window := by
  cases tag <;> cases h <;> rfl

/-! ### The mode byte -/

/-- The r/m operand comes back from its encoding, with its displacement length (R58). -/
theorem decodeModRm_encodeModRm (b0 : Byte) (rest : List Byte) (reg : BitVec 3) (nd : Nat) (o : Operand) (w : Bool)
    (h : wfRm w nd o = true) :
    decodeModRm (b0 :: (encodeModRm reg nd o ++ rest)) 1 w = some (reg, o, nd) := by
  cases o with
  | register c a =>
    simp only [wfRm, Bool.and_eq_true, beq_iff_eq] at h
    obtain ⟨h, rfl⟩ := h
    have hr : regOperand (regCode c a) w = .register c a := by
      cases w <;> cases c <;> cases a <;> first | rfl | exact absurd h Bool.false_ne_true
    simp [decodeModRm, encodeModRm, encodeRm, byteAt, hr]
  | memory ea =>
    cases ea with
    | direct a =>
      simp only [wfRm, beq_iff_eq] at h
      subst h
      simp [decodeModRm, encodeModRm, encodeRm, byteAt, wordBytes]
    | calculated b d =>
      simp only [wfRm, Bool.or_eq_true, Bool.and_eq_true, beq_iff_eq, bne_iff_ne] at h
      rcases h with (⟨⟨rfl, hb⟩, rfl⟩ | ⟨rfl, hd⟩) | rfl
      · have hc : baseCode b ≠ 6#3 := by cases b <;> first | decide | exact absurd rfl hb
        simp [decodeModRm, encodeModRm, encodeRm, byteAt, hc]
      · simp [decodeModRm, encodeModRm, encodeRm, byteAt, ← hd]
      · simp [decodeModRm, encodeModRm, encodeRm, byteAt, wordBytes]
  | immediateData v => exact absurd h Bool.false_ne_true
  | labelOffset k => exact absurd h Bool.false_ne_true

/-- The immediate comes back from its encoding, with its length (R59). -/
theorem decodeImm_encodeImm (pre rest : List Byte) (w s : Bool) (v : Word)
    (h : wfImmediate w s (.immediateData v) = true) :
    decodeImm (pre ++ (encodeImm w s (.immediateData v) ++ rest)) pre.length w s = some (v, immediateBytes w s) := by
  have e : ∀ k, (pre ++ (encodeImm w s (.immediateData v) ++ rest))[pre.length + k]? =
      (encodeImm w s (.immediateData v) ++ rest)[k]? := fun k => by
    rw [List.getElem?_append_right (by omega), Nat.add_sub_cancel_left]
  have e0 := e 0
  have e1 := e 1
  rw [Nat.add_zero] at e0
  unfold decodeImm byteAt
  rw [e0, e1]
  cases w with
  | false =>
    have hv : v = zextByte (loByte v) := by simpa [wfImmediate] using h
    simp [encodeImm, immediateBytes, ← hv]
  | true =>
    cases s with
    | false => simp [encodeImm, immediateBytes, wordBytes]
    | true =>
      have hv : v = sextByte (loByte v) := by simpa [wfImmediate] using h
      simp [encodeImm, immediateBytes, ← hv]

end Sys2Proof
end

