-- ==== Sys2Proof/Laws/Memory.lean ====
section
/-! SUPPORT. Memory: a read after a write, and that every memory operation keeps the canonical form. -/

namespace Sys2Proof.Machine

@[simp] theorem readByte_nil (a : Nat) : readByte [] a = unlistedByte := rfl

theorem readByte_eraseCell (m : List Host.Cell) (a b : Nat) :
    readByte (eraseCell m a) b = if a = b then unlistedByte else readByte m b := by
  induction m with
  | nil => simp [eraseCell]
  | cons c m ih =>
    by_cases hc : c.1 = a <;> by_cases hab : a = b <;> simp_all [eraseCell, readByte]

theorem readByte_insertCell (m : List Host.Cell) (a b : Nat) (v : Byte)
    (ha : ∀ c ∈ m, c.1 ≠ a) :
    readByte (insertCell m a v) b = if a = b then v else readByte m b := by
  induction m with
  | nil => simp [insertCell, readByte]
  | cons c m ih =>
    have hc : c.1 ≠ a := ha c (by simp)
    have hm := ih fun d hd => ha d (by simp [hd])
    by_cases hlt : a < c.1 <;> by_cases hab : a = b
    · subst hab; simp [insertCell, readByte, hlt]
    · simp [insertCell, readByte, hlt, hab]
    · subst hab; simp only [if_true] at hm; simp [insertCell, readByte, hlt, hc, hm]
    · simp only [hab, if_false] at hm; simp [insertCell, readByte, hlt, hab, hm]

theorem not_mem_eraseCell (m : List Host.Cell) (a : Nat) : ∀ c ∈ eraseCell m a, c.1 ≠ a := by
  induction m with
  | nil => simp [eraseCell]
  | cons c m ih =>
    by_cases hc : c.1 = a
    · rw [eraseCell, if_pos hc]; exact ih
    · rw [eraseCell, if_neg hc]
      intro d hd
      rcases List.mem_cons.mp hd with rfl | hd
      · exact hc
      · exact ih d hd

/-- One read after one write, in any memory. -/
theorem readByte_writeByte (m : List Host.Cell) (a b : Nat) (v : Byte) :
    readByte (writeByte m a v) b = if a = b then v else readByte m b := by
  unfold writeByte
  split
  · rename_i h; rw [readByte_eraseCell, h]
  · rw [readByte_insertCell _ _ _ _ (not_mem_eraseCell m a), readByte_eraseCell]
    split <;> rfl

@[simp] theorem readByte_writeByte_same (m : List Host.Cell) (a : Nat) (v : Byte) :
    readByte (writeByte m a v) a = v := by simp [readByte_writeByte]

theorem readByte_writeByte_other (m : List Host.Cell) {a b : Nat} (v : Byte) (h : a ≠ b) :
    readByte (writeByte m a v) b = readByte m b := by simp [readByte_writeByte, h]

/-! ### The canonical form -/

theorem Memory.wfFrom_mono {m : List Host.Cell} {n k : Nat} (hk : k ≤ n) (h : Memory.wfFrom n m = true) :
    Memory.wfFrom k m = true := by
  cases m with
  | nil => rfl
  | cons c m => simp_all [Memory.wfFrom]; omega

theorem Memory.wfFrom_eraseCell {m : List Host.Cell} {n : Nat} (a : Nat) (h : Memory.wfFrom n m = true) :
    Memory.wfFrom n (eraseCell m a) = true := by
  induction m generalizing n with
  | nil => rfl
  | cons c m ih =>
    simp only [Memory.wfFrom, Bool.and_eq_true, decide_eq_true_eq] at h
    by_cases hc : c.1 = a
    · simp only [eraseCell, hc, if_true]
      exact Memory.wfFrom_mono (by omega) (ih h.2)
    · simp only [eraseCell, hc, if_false, Memory.wfFrom, Bool.and_eq_true, decide_eq_true_eq]
      exact ⟨h.1, ih h.2⟩

theorem Memory.wfFrom_insertCell {m : List Host.Cell} {n a : Nat} {v : Byte} (hn : n ≤ a) (ha : a ≤ 65535)
    (hv : v ≠ unlistedByte) (hm : ∀ c ∈ m, c.1 ≠ a) (h : Memory.wfFrom n m = true) :
    Memory.wfFrom n (insertCell m a v) = true := by
  induction m generalizing n with
  | nil => simp [insertCell, Memory.wfFrom, hn, ha, hv]
  | cons c m ih =>
    have hc : c.1 ≠ a := hm c (by simp)
    simp only [Memory.wfFrom, Bool.and_eq_true, decide_eq_true_eq, bne_iff_ne] at h
    by_cases hlt : a < c.1
    · simp only [insertCell, hlt, if_true, Memory.wfFrom, Bool.and_eq_true, decide_eq_true_eq, bne_iff_ne]
      exact ⟨⟨⟨hn, ha⟩, hv⟩, ⟨⟨by omega, h.1.1.2⟩, h.1.2⟩, h.2⟩
    · simp only [insertCell, hlt, if_false, Memory.wfFrom, Bool.and_eq_true, decide_eq_true_eq, bne_iff_ne]
      exact ⟨h.1, ih (by omega) (fun d hd => hm d (by simp [hd])) h.2⟩

/-- Every byte write in the address space keeps the canonical form. -/
theorem Memory.wf_writeByte {m : List Host.Cell} {a : Nat} (v : Byte) (ha : a ≤ 65535)
    (h : Memory.wf m = true) : Memory.wf (writeByte m a v) = true := by
  unfold writeByte
  split
  · exact Memory.wfFrom_eraseCell a h
  · exact Memory.wfFrom_insertCell (Nat.zero_le a) ha ‹_› (not_mem_eraseCell m a) (Memory.wfFrom_eraseCell a h)

theorem inBounds_iff (addr : Int) (wide : Bool) :
    inBounds addr wide = true ↔ 0 ≤ addr ∧ addr + (accessBytes wide : Int) - 1 ≤ 65535 := by
  simp [inBounds]

/-- Every store in bounds keeps the canonical form. -/
theorem Memory.wf_memStore {m : List Host.Cell} {addr : Int} {wide : Bool} (v : Word)
    (hb : inBounds addr wide = true) (h : Memory.wf m = true) :
    Memory.wf (memStore m addr.toNat wide v) = true := by
  obtain ⟨h0, h1⟩ := (inBounds_iff addr wide).mp hb
  cases wide with
  | false => exact Memory.wf_writeByte _ (by simp [accessBytes] at h1; omega) h
  | true =>
    simp [accessBytes] at h1
    exact Memory.wf_writeByte _ (by omega) (Memory.wf_writeByte _ (by omega) h)

/-- `memWrite` answers memory only in bounds, and then the store's. -/
theorem memWrite_ok {m m' : List Host.Cell} {addr : Int} {wide : Bool} {v : Word}
    (h : memWrite m addr wide v = .ok m') :
    inBounds addr wide = true ∧ m' = memStore m addr.toNat wide v := by
  unfold memWrite at h
  split at h
  · exact ⟨‹_›, by simpa using h.symm⟩
  · cases h

theorem Memory.wf_placeBytes {m : List Host.Cell} (a : Nat) (bs : List Byte) (h : Memory.wf m = true) :
    Memory.wf (placeBytes m a bs) = true := by
  induction bs generalizing m a with
  | nil => exact h
  | cons b bs ih =>
    simp only [placeBytes]
    split
    · exact ih _ (Memory.wf_writeByte b ‹_› h)
    · exact ih _ h

/-- A read of one byte after bytes are placed. -/
theorem readByte_placeBytes (m : List Host.Cell) (a b : Nat) (bs : List Byte) (hb : b ≤ 65535) :
    readByte (placeBytes m a bs) b = if a ≤ b then (bs[b - a]?).getD (readByte m b) else readByte m b := by
  induction bs generalizing m a with
  | nil => simp [placeBytes]
  | cons x bs ih =>
    rw [placeBytes, ih]
    rcases Nat.lt_trichotomy a b with h | h | h
    · obtain ⟨k, rfl⟩ := Nat.exists_eq_add_of_lt h
      have e : a + k + 1 - a = (a + k + 1 - (a + 1)) + 1 := by omega
      rw [if_pos (by omega), if_pos (by omega), if_pos (by omega), e, List.getElem?_cons_succ,
        readByte_writeByte_other _ _ (by omega)]
    · subst h; simp [hb]
    · rw [if_neg (show ¬a + 1 ≤ b by omega), if_neg (show ¬a ≤ b by omega)]
      split
      · rw [readByte_writeByte_other _ _ (by omega)]
      · rfl

/-- A read of one byte after a store: the bytes outside the access are kept. -/
theorem readByte_memStore_other (m : List Host.Cell) (a b : Nat) (wide : Bool) (v : Word)
    (h : b < a ∨ a + accessBytes wide ≤ b) : readByte (memStore m a wide v) b = readByte m b := by
  cases wide <;> simp [memStore, accessBytes] at *
  · exact readByte_writeByte_other _ _ (by omega)
  · rw [readByte_writeByte_other _ _ (by omega), readByte_writeByte_other _ _ (by omega)]

end Sys2Proof.Machine
end

