-- ==== Sys2Proof/Laws/State.lean ====
section
/-! SUPPORT. What each update of the state does to each field, and what a read of a cell gives after a write. -/

namespace Sys2Proof.Machine

@[simp] theorem raise_regs (s : State) (e : Abort) : (raise s e).regs = s.regs := rfl
@[simp] theorem raise_ip (s : State) (e : Abort) : (raise s e).ip = s.ip := rfl
@[simp] theorem raise_zf (s : State) (e : Abort) : (raise s e).zf = s.zf := rfl
@[simp] theorem raise_sf (s : State) (e : Abort) : (raise s e).sf = s.sf := rfl
@[simp] theorem raise_mem (s : State) (e : Abort) : (raise s e).mem = s.mem := rfl
@[simp] theorem raise_status (s : State) (e : Abort) : (raise s e).status = abortStatus e := rfl
@[simp] theorem raise_wired (s : State) (e : Abort) : (raise s e).wired = s.wired := rfl

@[simp] theorem halt_regs (s : State) : (halt s).regs = s.regs := rfl
@[simp] theorem halt_ip (s : State) : (halt s).ip = s.ip := rfl
@[simp] theorem halt_zf (s : State) : (halt s).zf = s.zf := rfl
@[simp] theorem halt_sf (s : State) : (halt s).sf = s.sf := rfl
@[simp] theorem halt_mem (s : State) : (halt s).mem = s.mem := rfl
@[simp] theorem halt_status (s : State) : (halt s).status = .halted := rfl
@[simp] theorem halt_wired (s : State) : (halt s).wired = s.wired := rfl

@[simp] theorem stopUndecodable_regs (s : State) : (stopUndecodable s).regs = s.regs := rfl
@[simp] theorem stopUndecodable_ip (s : State) : (stopUndecodable s).ip = s.ip := rfl
@[simp] theorem stopUndecodable_zf (s : State) : (stopUndecodable s).zf = s.zf := rfl
@[simp] theorem stopUndecodable_sf (s : State) : (stopUndecodable s).sf = s.sf := rfl
@[simp] theorem stopUndecodable_mem (s : State) : (stopUndecodable s).mem = s.mem := rfl
@[simp] theorem stopUndecodable_status (s : State) : (stopUndecodable s).status = .stoppedUndecodable := rfl
@[simp] theorem stopUndecodable_wired (s : State) : (stopUndecodable s).wired = s.wired := rfl

@[simp] theorem setFlags_regs (s : State) (w : Bool) (r : Word) : (setFlags s w r).regs = s.regs := rfl
@[simp] theorem setFlags_ip (s : State) (w : Bool) (r : Word) : (setFlags s w r).ip = s.ip := rfl
@[simp] theorem setFlags_zf (s : State) (w : Bool) (r : Word) : (setFlags s w r).zf = zeroFlag w r := rfl
@[simp] theorem setFlags_sf (s : State) (w : Bool) (r : Word) : (setFlags s w r).sf = signFlag w r := rfl
@[simp] theorem setFlags_mem (s : State) (w : Bool) (r : Word) : (setFlags s w r).mem = s.mem := rfl
@[simp] theorem setFlags_status (s : State) (w : Bool) (r : Word) : (setFlags s w r).status = s.status := rfl
@[simp] theorem setFlags_wired (s : State) (w : Bool) (r : Word) : (setFlags s w r).wired = s.wired := rfl

@[simp] theorem decrementCx_regs (s : State) : (decrementCx s).regs = writeCell s.regs .cx (readCell s.regs .cx - 1) := rfl
@[simp] theorem decrementCx_ip (s : State) : (decrementCx s).ip = s.ip := rfl
@[simp] theorem decrementCx_zf (s : State) : (decrementCx s).zf = s.zf := rfl
@[simp] theorem decrementCx_sf (s : State) : (decrementCx s).sf = s.sf := rfl
@[simp] theorem decrementCx_mem (s : State) : (decrementCx s).mem = s.mem := rfl
@[simp] theorem decrementCx_status (s : State) : (decrementCx s).status = s.status := rfl
@[simp] theorem decrementCx_wired (s : State) : (decrementCx s).wired = s.wired := rfl

@[simp] theorem pastInstr_regs (f : Fields) (s : State) : (pastInstr f s).regs = s.regs := rfl
@[simp] theorem pastInstr_ip (f : Fields) (s : State) : (pastInstr f s).ip = BitVec.ofNat 16 (s.ip.toNat + f.size) := rfl
@[simp] theorem pastInstr_zf (f : Fields) (s : State) : (pastInstr f s).zf = s.zf := rfl
@[simp] theorem pastInstr_sf (f : Fields) (s : State) : (pastInstr f s).sf = s.sf := rfl
@[simp] theorem pastInstr_mem (f : Fields) (s : State) : (pastInstr f s).mem = s.mem := rfl
@[simp] theorem pastInstr_status (f : Fields) (s : State) : (pastInstr f s).status = s.status := rfl
@[simp] theorem pastInstr_wired (f : Fields) (s : State) : (pastInstr f s).wired = s.wired := rfl

@[simp] theorem storeRegister_regs (s : State) (w : Bool) (v : Word) (c : RegCell) (a : Access) : (storeOperand s w v (.register c a)).regs = regWrite s.regs c a v := rfl
@[simp] theorem storeRegister_ip (s : State) (w : Bool) (v : Word) (c : RegCell) (a : Access) : (storeOperand s w v (.register c a)).ip = s.ip := rfl
@[simp] theorem storeRegister_zf (s : State) (w : Bool) (v : Word) (c : RegCell) (a : Access) : (storeOperand s w v (.register c a)).zf = s.zf := rfl
@[simp] theorem storeRegister_sf (s : State) (w : Bool) (v : Word) (c : RegCell) (a : Access) : (storeOperand s w v (.register c a)).sf = s.sf := rfl
@[simp] theorem storeRegister_mem (s : State) (w : Bool) (v : Word) (c : RegCell) (a : Access) : (storeOperand s w v (.register c a)).mem = s.mem := rfl
@[simp] theorem storeRegister_status (s : State) (w : Bool) (v : Word) (c : RegCell) (a : Access) : (storeOperand s w v (.register c a)).status = s.status := rfl
@[simp] theorem storeRegister_wired (s : State) (w : Bool) (v : Word) (c : RegCell) (a : Access) : (storeOperand s w v (.register c a)).wired = s.wired := rfl

@[simp] theorem storeMemory_regs (s : State) (w : Bool) (v : Word) (ea : EffectiveAddress) : (storeOperand s w v (.memory ea)).regs = s.regs := rfl
@[simp] theorem storeMemory_ip (s : State) (w : Bool) (v : Word) (ea : EffectiveAddress) : (storeOperand s w v (.memory ea)).ip = s.ip := rfl
@[simp] theorem storeMemory_zf (s : State) (w : Bool) (v : Word) (ea : EffectiveAddress) : (storeOperand s w v (.memory ea)).zf = s.zf := rfl
@[simp] theorem storeMemory_sf (s : State) (w : Bool) (v : Word) (ea : EffectiveAddress) : (storeOperand s w v (.memory ea)).sf = s.sf := rfl
@[simp] theorem storeMemory_mem (s : State) (w : Bool) (v : Word) (ea : EffectiveAddress) : (storeOperand s w v (.memory ea)).mem = memStore s.mem (effectiveAddress s.regs ea).toNat w v := rfl
@[simp] theorem storeMemory_status (s : State) (w : Bool) (v : Word) (ea : EffectiveAddress) : (storeOperand s w v (.memory ea)).status = s.status := rfl
@[simp] theorem storeMemory_wired (s : State) (w : Bool) (v : Word) (ea : EffectiveAddress) : (storeOperand s w v (.memory ea)).wired = s.wired := rfl

/-- What any operand store leaves alone. -/
@[simp] theorem storeOperand_ip (s : State) (w : Bool) (v : Word) (o : Operand) : (storeOperand s w v o).ip = s.ip := by
  cases o <;> rfl
@[simp] theorem storeOperand_zf (s : State) (w : Bool) (v : Word) (o : Operand) : (storeOperand s w v o).zf = s.zf := by
  cases o <;> rfl
@[simp] theorem storeOperand_sf (s : State) (w : Bool) (v : Word) (o : Operand) : (storeOperand s w v o).sf = s.sf := by
  cases o <;> rfl
@[simp] theorem storeOperand_status (s : State) (w : Bool) (v : Word) (o : Operand) :
    (storeOperand s w v o).status = s.status := by cases o <;> rfl
@[simp] theorem storeOperand_wired (s : State) (w : Bool) (v : Word) (o : Operand) :
    (storeOperand s w v o).wired = s.wired := by cases o <;> rfl

/-! ### Cells -/

@[simp] theorem readCell_writeCell_same (r : Regs) (c : RegCell) (v : Word) : readCell (writeCell r c v) c = v := by
  cases c <;> rfl

theorem readCell_writeCell_other (r : Regs) {c d : RegCell} (v : Word) (h : d ≠ c) :
    readCell (writeCell r c v) d = readCell r d := by
  cases c <;> cases d <;> first | rfl | exact absurd rfl h

theorem readCell_regWrite_other (r : Regs) {c d : RegCell} (a : Access) (v : Word) (h : d ≠ c) :
    readCell (regWrite r c a v) d = readCell r d := by
  cases a <;> exact readCell_writeCell_other r _ h

@[simp] theorem readCell_regWrite_same (r : Regs) (c : RegCell) (a : Access) (v : Word) :
    readCell (regWrite r c a v) c =
      match a with
      | .full => v
      | .low => wordOf (hiByte (readCell r c)) (loByte v)
      | .high => wordOf (loByte v) (loByte (readCell r c)) := by
  cases a <;> exact readCell_writeCell_same r c _

end Sys2Proof.Machine
end

