-- ==== Sys2Proof/Laws/Ops.lean ====
section
/-! SUPPORT. One lemma for each shared operation: everything it can do. -/

namespace Sys2Proof.Machine

/-- `advance` in range, and out of it. -/
theorem advance_of_next (f : Fields) (s : State) (h : NextInRange f s) : advance f.size s = .ok (pastInstr f s) :=
  if_pos h

theorem advance_of_top (f : Fields) (s : State) (h : ¬NextInRange f s) :
    advance f.size s = .error (.bounds ((s.ip.toNat + f.size : Nat) : Int)) :=
  if_neg h

/-- `operandPair` answers exactly the two slots of a valid record. -/
theorem operandPair_ok (f : Fields) (p : Operand × Operand) : operandPair f = .ok p ↔ HasPair f p.1 p.2 := by
  rcases f with ⟨_ | d, _ | s, fl, n⟩ <;> rcases p with ⟨a, b⟩ <;> simp [operandPair, HasPair]
  split
  · rename_i h
    simp only [Except.ok.injEq, Prod.mk.injEq]
    exact ⟨fun ⟨ha, hb⟩ => ⟨ha, hb, ha ▸ hb ▸ h⟩, fun h => ⟨h.1, h.2.1⟩⟩
  · rename_i h
    simp only [reduceCtorEq, false_iff]
    rintro ⟨rfl, rfl, hv⟩
    exact h hv

theorem operandPair_error (f : Fields) (e : Abort) (h : operandPair f = .error e) : e = .operand := by
  rcases f with ⟨_ | d, _ | s, fl, n⟩ <;> simp [operandPair] at h <;> first | exact h.symm | skip
  split at h <;> simp_all

/-- `branchOffset` answers exactly the offset of a record of the right shape. -/
theorem branchOffset_ok (f : Fields) (k : Byte) : branchOffset f = .ok k ↔ HasOffset f k := by
  rcases f with ⟨_ | ⟨c, a⟩ | ea | v | l, _ | s, fl, n⟩ <;> simp [branchOffset, HasOffset]

theorem branchOffset_error (f : Fields) (e : Abort) (h : branchOffset f = .error e) : e = .operand := by
  rcases f with ⟨_ | ⟨c, a⟩ | ea | v | l, _ | s, fl, n⟩ <;> simp_all [branchOffset]

/-- A valid pair holds a register or memory destination, a source that is no label, and at most one memory operand. -/
theorem validPair_cases {w : Bool} {d s : Operand} (h : validPair w d s = true) :
    isDestination d = true ∧ operandFits w d = true ∧ operandFits w s = true ∧
      ¬(isMemory d = true ∧ isMemory s = true) := by
  simp only [validPair, Bool.and_eq_true, Bool.not_eq_true'] at h
  refine ⟨h.1.1.1, h.1.1.2, h.1.2, fun hm => ?_⟩
  simp_all

/-- In a valid record the destination's width is the wide flag (R100). -/
theorem destWide_of_fits {w : Bool} {d : Operand} (h : operandFits w d = true) : destWide w d = w := by
  cases d with
  | register c a => cases w <;> cases a <;> simp_all [operandFits, destWide, accessWide]
  | memory | immediateData | labelOffset => rfl

/-- `readOperand` of anything but a label: the value when the access is in bounds, else BoundsFault. -/
theorem readOperand_eq (s : State) (w : Bool) (o : Operand) (h : operandFits w o = true) :
    readOperand s w o =
      if accessible s w o = true then .ok (operandValue s w o)
      else match o with
        | .memory ea => .error (.bounds (effectiveAddress s.regs ea))
        | _ => .error .operand := by
  cases o with
  | register | immediateData => rfl
  | memory ea => rfl
  | labelOffset k => exact absurd h Bool.false_ne_true

/-- `writeOperand` to a destination: the store when the access is in bounds, else BoundsFault. -/
theorem writeOperand_eq (s : State) (w : Bool) (v : Word) (o : Operand) (h : isDestination o = true) :
    writeOperand s w v o =
      if accessible s w o = true then .ok (storeOperand s w v o)
      else match o with
        | .memory ea => .error (.bounds (effectiveAddress s.regs ea))
        | _ => .error .operand := by
  cases o with
  | register => rfl
  | memory ea =>
    simp only [writeOperand, accessible, memWrite, storeOperand]
    by_cases hb : inBounds (effectiveAddress s.regs ea) w = true <;> simp [hb]
  | immediateData | labelOffset => exact absurd h Bool.false_ne_true

@[simp] theorem accessible_pastInstr (f : Fields) (s : State) (w : Bool) (o : Operand) :
    accessible (pastInstr f s) w o = accessible s w o := by cases o <;> rfl

@[simp] theorem operandValue_pastInstr (f : Fields) (s : State) (w : Bool) (o : Operand) :
    operandValue (pastInstr f s) w o = operandValue s w o := by cases o <;> rfl

/-- The bytes outside a store to an accessible operand are kept. -/
theorem readByte_storeOperand (s : State) (w : Bool) (v : Word) (o : Operand) (a : Nat)
    (hacc : accessible s w o = true) (h : ¬Touches s w o a) :
    readByte (storeOperand s w v o).mem a = readByte s.mem a := by
  cases o with
  | memory ea =>
    obtain ⟨h0, _⟩ := (inBounds_iff _ _).mp hacc
    apply readByte_memStore_other
    simp only [Touches] at h
    omega
  | register | immediateData | labelOffset => rfl

/-- The cells other than a store's destination are kept. -/
theorem readCell_storeOperand (s : State) (w : Bool) (v : Word) (o : Operand) (c : RegCell)
    (h : ∀ a, o ≠ .register c a) : readCell (storeOperand s w v o).regs c = readCell s.regs c := by
  cases o with
  | register d a =>
    exact readCell_regWrite_other _ _ _ fun e => h a (by rw [e])
  | memory | immediateData | labelOffset => rfl

/-- A store to an accessible operand keeps the canonical form of memory. -/
theorem wf_storeOperand (s : State) (w : Bool) (v : Word) (o : Operand) (hacc : accessible s w o = true)
    (h : Memory.wf s.mem = true) : Memory.wf (storeOperand s w v o).mem = true := by
  cases o with
  | memory ea => exact Memory.wf_memStore v hacc h
  | register | immediateData | labelOffset => exact h

/-- `branchTo` in range, and out of it, from a state past the instruction. -/
theorem branchTo_of_target (f : Fields) (k : Byte) (s t : State) (ht : t.ip = BitVec.ofNat 16 (s.ip.toNat + f.size))
    (hn : NextInRange f s) (h : TargetInRange f k s) :
    branchTo k t = .ok { t with ip := BitVec.ofInt 16 (branchTarget f k s) } := by
  unfold NextInRange at hn
  have e : (t.ip.toNat : Int) + k.toInt = branchTarget f k s := by
    rw [ht, BitVec.toNat_ofNat, Nat.mod_eq_of_lt (by omega)]; rfl
  unfold branchTo
  rw [e]
  exact if_pos h

theorem branchTo_out_of_range (f : Fields) (k : Byte) (s t : State)
    (ht : t.ip = BitVec.ofNat 16 (s.ip.toNat + f.size)) (hn : NextInRange f s) (h : ¬TargetInRange f k s) :
    branchTo k t = .error (.bounds (branchTarget f k s)) := by
  unfold NextInRange at hn
  have e : (t.ip.toNat : Int) + k.toInt = branchTarget f k s := by
    rw [ht, BitVec.toNat_ofNat, Nat.mod_eq_of_lt (by omega)]; rfl
  unfold branchTo
  rw [e]
  exact if_neg h

end Sys2Proof.Machine
end

