-- ==== Sys2Proof/Laws/Exec.lean ====
section
/-! SUPPORT. Inversion: for each shared meaning, everything it can answer. An instruction either raises, leaving the state
before the step with a fault in STATUS, or commits what is said here. -/

namespace Sys2Proof.Machine

/-- The end of an instruction is always a next state: its result, or the raise. -/
theorem conclude_next (s t : State) (r : Except Abort State) :
    conclude s r = .next t ↔ r = .ok t ∨ ∃ e, r = .error e ∧ t = raise s e := by
  cases r with
  | ok u => simp [conclude]
  | error e => simp [conclude, eq_comm]

/-- A bind that ends well had a first part that ended well. -/
theorem except_bind_ok {α β : Type} {x : Except Abort α} {g : α → Except Abort β} {b : β} :
    (x >>= g) = .ok b ↔ ∃ a, x = .ok a ∧ g a = .ok b := by
  cases x <;> simp [bind, Except.bind]

theorem advance_ok {f : Fields} {s s1 : State} (h : advance f.size s = .ok s1) :
    NextInRange f s ∧ s1 = pastInstr f s := by
  by_cases hn : NextInRange f s
  · rw [advance_of_next f s hn] at h
    exact ⟨hn, by simpa using h.symm⟩
  · rw [advance_of_top f s hn] at h
    cases h

theorem readOperand_ok {s : State} {w : Bool} {o : Operand} {v : Word} (hf : operandFits w o = true)
    (h : readOperand s w o = .ok v) : accessible s w o = true ∧ v = operandValue s w o := by
  rw [readOperand_eq s w o hf] at h
  split at h
  · exact ⟨‹_›, by simpa using h.symm⟩
  · split at h <;> cases h

theorem writeOperand_ok {s t : State} {w : Bool} {o : Operand} {v : Word} (hd : isDestination o = true)
    (h : writeOperand s w v o = .ok t) : accessible s w o = true ∧ t = storeOperand s w v o := by
  rw [writeOperand_eq s w v o hd] at h
  split at h
  · exact ⟨‹_›, by simpa using h.symm⟩
  · split at h <;> cases h

/-- Everything a `mov` can answer (42_mov.md R130). -/
theorem execMov_cases {f : Fields} {s t : State} (h : execMov f s = .next t) :
    (∃ e, t = raise s e) ∨
    ∃ d src, HasPair f d src ∧ NextInRange f s ∧ accessible s f.flags.wide d = true ∧
      accessible s f.flags.wide src = true ∧
      t = storeOperand (pastInstr f s) f.flags.wide (operandValue s f.flags.wide src) d := by
  rcases (conclude_next s t _).mp h with h | ⟨e, -, rfl⟩
  · right
    obtain ⟨s1, h1, h⟩ := except_bind_ok.mp h
    obtain ⟨p, hp, h⟩ := except_bind_ok.mp h
    obtain ⟨v, hv, h⟩ := except_bind_ok.mp h
    obtain ⟨hn, rfl⟩ := advance_ok h1
    have hpair := (operandPair_ok f p).mp hp
    obtain ⟨hd, -, hsf, -⟩ := validPair_cases hpair.2.2
    obtain ⟨ha, rfl⟩ := readOperand_ok hsf hv
    obtain ⟨hb, rfl⟩ := writeOperand_ok hd h
    exact ⟨p.1, p.2, hpair, hn, by simpa using hb, by simpa using ha, by simp⟩
  · exact .inl ⟨e, rfl⟩

/-- Everything an `add`, `sub` or `cmp` can answer (43_arith.md R140). -/
theorem execAlu_cases {op : AluOp} {f : Fields} {s t : State} (h : execAlu op f s = .next t) :
    (∃ e, t = raise s e) ∨
    ∃ d src r, HasPair f d src ∧ NextInRange f s ∧ accessible s f.flags.wide d = true ∧
      accessible s f.flags.wide src = true ∧
      r = aluResult op (operandValue s f.flags.wide d) (operandValue s f.flags.wide src) ∧
      t = setFlags (if aluStores op then storeOperand (pastInstr f s) f.flags.wide r d else pastInstr f s)
        f.flags.wide r := by
  rcases (conclude_next s t _).mp h with h | ⟨e, -, rfl⟩
  · right
    obtain ⟨s1, h1, h⟩ := except_bind_ok.mp h
    obtain ⟨p, hp, h⟩ := except_bind_ok.mp h
    obtain ⟨sv, hs, h⟩ := except_bind_ok.mp h
    obtain ⟨dv, hdv, h⟩ := except_bind_ok.mp h
    have hb := (show (aluStore op s1 f.flags.wide (aluResult op dv sv) p.1 >>= fun s2 =>
      Except.ok (setFlags s2 (destWide f.flags.wide p.1) (aluResult op dv sv))) = .ok t from h)
    obtain ⟨s2, h2, h3⟩ := except_bind_ok.mp hb
    clear hb h
    obtain ⟨hn, rfl⟩ := advance_ok h1
    have hpair := (operandPair_ok f p).mp hp
    obtain ⟨hd, hdf, hsf, -⟩ := validPair_cases hpair.2.2
    obtain ⟨ha, rfl⟩ := readOperand_ok hsf hs
    obtain ⟨hc, rfl⟩ := readOperand_ok hdf hdv
    rw [operandValue_pastInstr, operandValue_pastInstr] at h2 h3
    refine ⟨p.1, p.2, _, hpair, hn, by simpa using hc, by simpa using ha, rfl, ?_⟩
    rw [destWide_of_fits hdf] at h3
    have h' := Except.ok.inj h3
    rw [← h']
    unfold aluStore at h2
    split at h2
    · rename_i hst
      obtain ⟨-, rfl⟩ := writeOperand_ok hd h2
      rw [if_pos hst]
    · rename_i hst
      rw [if_neg hst, Except.ok.inj h2]
  · exact .inl ⟨e, rfl⟩

/-- Everything an eligible jump can answer (44_jumps.md R160). -/
theorem execJump_cases {op : OperationTag} {taken : State → Bool} {f : Fields} {s t : State}
    (h : execJump op taken f s = .next t) :
    (∃ e, t = raise s e) ∨
    ∃ k, HasOffset f k ∧ NextInRange f s ∧ isWired s.wired op = true ∧
      ((taken (pastInstr f s) = true ∧ TargetInRange f k s ∧
          t = { s with ip := BitVec.ofInt 16 (branchTarget f k s) }) ∨
       (taken (pastInstr f s) = false ∧ t = pastInstr f s)) := by
  rcases (conclude_next s t _).mp h with h | ⟨e, -, rfl⟩
  · right
    obtain ⟨s1, h1, h⟩ := except_bind_ok.mp h
    obtain ⟨k, hk, h⟩ := except_bind_ok.mp h
    obtain ⟨u, hu, h⟩ := except_bind_ok.mp h
    obtain ⟨hn, rfl⟩ := advance_ok h1
    have hw : isWired s.wired op = true := by
      unfold requireWired at hu
      split at hu
      · assumption
      · cases hu
    refine ⟨k, (branchOffset_ok f k).mp hk, hn, hw, ?_⟩
    split at h
    · rename_i ht
      by_cases hr : TargetInRange f k s
      · rw [branchTo_of_target f k s _ rfl hn hr] at h
        exact .inl ⟨ht, hr, (Except.ok.inj h).symm⟩
      · rw [branchTo_out_of_range f k s _ rfl hn hr] at h
        cases h
    · rename_i ht
      exact .inr ⟨by simpa using ht, (Except.ok.inj h).symm⟩
  · exact .inl ⟨e, rfl⟩

/-- A never wired jump only raises (44_jumps.md R162). -/
theorem execNeverWired_cases {op : OperationTag} {f : Fields} {s t : State} (h : execNeverWired op f s = .next t) :
    ∃ e, t = raise s e := by
  rcases (conclude_next s t _).mp h with h | ⟨e, -, rfl⟩
  · obtain ⟨s1, -, h⟩ := except_bind_ok.mp h
    obtain ⟨k, -, h⟩ := except_bind_ok.mp h
    cases h
  · exact ⟨e, rfl⟩

/-- Everything a loop can answer (45_loops.md R190). -/
theorem execLoopWith_cases {op : OperationTag} {extra : State → Bool} {f : Fields} {s t : State}
    (h : execLoopWith op extra f s = .next t) :
    (∃ e, t = raise s e) ∨
    ∃ k, HasOffset f k ∧ NextInRange f s ∧ isWired s.wired op = true ∧
      ((s.regs.cx - 1 ≠ 0 ∧ extra (decrementCx (pastInstr f s)) = true ∧ TargetInRange f k s ∧
          t = { decrementCx s with ip := BitVec.ofInt 16 (branchTarget f k s) }) ∨
       (¬(s.regs.cx - 1 ≠ 0 ∧ extra (decrementCx (pastInstr f s)) = true) ∧ t = decrementCx (pastInstr f s))) := by
  rcases (conclude_next s t _).mp h with h | ⟨e, -, rfl⟩
  · right
    obtain ⟨s1, h1, h⟩ := except_bind_ok.mp h
    obtain ⟨k, hk, h⟩ := except_bind_ok.mp h
    obtain ⟨u, hu, h⟩ := except_bind_ok.mp h
    obtain ⟨hn, rfl⟩ := advance_ok h1
    have hw : isWired s.wired op = true := by
      unfold requireWired at hu
      split at hu
      · assumption
      · cases hu
    have hc : readCell (decrementCx (pastInstr f s)).regs .cx = s.regs.cx - 1 := rfl
    refine ⟨k, (branchOffset_ok f k).mp hk, hn, hw, ?_⟩
    simp only [hc] at h
    split at h
    · rename_i ht
      simp only [Bool.and_eq_true, bne_iff_ne] at ht
      by_cases hr : TargetInRange f k s
      · rw [branchTo_of_target f k s _ rfl hn hr] at h
        exact .inl ⟨ht.1, ht.2, hr, (Except.ok.inj h).symm⟩
      · rw [branchTo_out_of_range f k s _ rfl hn hr] at h
        cases h
    · rename_i ht
      simp only [Bool.and_eq_true, bne_iff_ne] at ht
      exact .inr ⟨ht, (Except.ok.inj h).symm⟩
  · exact .inl ⟨e, rfl⟩

end Sys2Proof.Machine
end

