-- ==== Sys2Proof/Laws/Faults.lean ====
section
/-! SUPPORT. The causes of a BoundsFault: for each shared operation and meaning, when it raises one and with which integer. -/

namespace Sys2Proof.Machine

/-- A bind that ends in an abort had a part that raised it. -/
theorem except_bind_error {α β : Type} {x : Except Abort α} {g : α → Except Abort β} {e : Abort} :
    (x >>= g) = .error e ↔ x = .error e ∨ ∃ a, x = .ok a ∧ g a = .error e := by
  cases x <;> simp [bind, Except.bind]

/-- An instruction that leaves a BoundsFault in STATUS, and whose results are all running states, raised it. -/
theorem conclude_bounds {s t : State} {r : Except Abort State} {a : Int} (h : conclude s r = .next t)
    (ht : t.status = .faultBounds a) (hr : ∀ u, r = .ok u → u.status = .running) : r = .error (.bounds a) := by
  rcases (conclude_next s t r).mp h with h | ⟨e, rfl, rfl⟩
  · rw [hr t h] at ht; cases ht
  · cases e <;> simp [abortStatus] at ht
    rw [ht]

/-- What `advance` raises. -/
theorem advance_error {f : Fields} {s : State} {e : Abort} (h : advance f.size s = .error e) :
    ¬NextInRange f s ∧ e = .bounds ((s.ip.toNat + f.size : Nat) : Int) := by
  by_cases hn : NextInRange f s
  · rw [advance_of_next f s hn] at h; cases h
  · rw [advance_of_top f s hn] at h; exact ⟨hn, (Except.error.inj h).symm⟩

/-- A read raises BoundsFault only for a memory operand out of bounds, with its address. -/
theorem readOperand_bounds {s : State} {w : Bool} {o : Operand} {a : Int}
    (h : readOperand s w o = .error (.bounds a)) :
    ∃ ea, o = .memory ea ∧ inBounds (effectiveAddress s.regs ea) w = false ∧ a = effectiveAddress s.regs ea := by
  cases o with
  | memory ea =>
    simp only [readOperand, memRead] at h
    split at h
    · cases h
    · rename_i hb; exact ⟨ea, rfl, by simpa using hb, by cases h; rfl⟩
  | register | immediateData | labelOffset => cases h

/-- A write raises BoundsFault only for a memory operand out of bounds, with its address. -/
theorem writeOperand_bounds {s : State} {w : Bool} {v : Word} {o : Operand} {a : Int}
    (h : writeOperand s w v o = .error (.bounds a)) :
    ∃ ea, o = .memory ea ∧ inBounds (effectiveAddress s.regs ea) w = false ∧ a = effectiveAddress s.regs ea := by
  cases o with
  | memory ea =>
    simp only [writeOperand, memWrite] at h
    by_cases hb : inBounds (effectiveAddress s.regs ea) w = true
    · simp [hb] at h
    · simp [hb] at h; exact ⟨ea, rfl, by simpa using hb, h.symm⟩
  | register | immediateData | labelOffset => cases h

/-- A branch raises BoundsFault only for a target out of range, with the target. -/
theorem branchTo_bounds {f : Fields} {k : Byte} {s t : State} {a : Int}
    (ht : t.ip = BitVec.ofNat 16 (s.ip.toNat + f.size)) (hn : NextInRange f s)
    (h : branchTo k t = .error (.bounds a)) : ¬TargetInRange f k s ∧ a = branchTarget f k s := by
  by_cases hr : TargetInRange f k s
  · rw [branchTo_of_target f k s t ht hn hr] at h; cases h
  · rw [branchTo_out_of_range f k s t ht hn hr] at h
    cases h; exact ⟨hr, rfl⟩

/-- The shared operations leave STATUS alone. -/
theorem advance_status {n : Nat} {s t : State} (h : advance n s = .ok t) : t.status = s.status := by
  unfold advance at h; split at h <;> cases h; rfl

theorem writeOperand_status {s t : State} {w : Bool} {v : Word} {o : Operand} (h : writeOperand s w v o = .ok t) :
    t.status = s.status := by
  cases o with
  | register => cases h; rfl
  | memory ea => simp only [writeOperand] at h; split at h <;> cases h; rfl
  | immediateData | labelOffset => cases h

theorem branchTo_status {k : Byte} {s t : State} (h : branchTo k s = .ok t) : t.status = s.status := by
  unfold branchTo at h; split at h <;> cases h; rfl

/-- The causes of a BoundsFault in a two-operand instruction (41_cycle.md R113, 20_memory.md R38). -/
def PairBounds (f : Fields) (s : State) (a : Int) : Prop :=
  (¬NextInRange f s ∧ a = ((s.ip.toNat + f.size : Nat) : Int)) ∨
    ∃ ea, (f.dst = some (.memory ea) ∨ f.src = some (.memory ea)) ∧
      inBounds (effectiveAddress s.regs ea) f.flags.wide = false ∧ a = effectiveAddress s.regs ea

/-- The causes of a BoundsFault in a jump or loop (41_cycle.md R113, 44_jumps.md R180). -/
def BranchBounds (f : Fields) (s : State) (branches : Prop) (a : Int) : Prop :=
  (¬NextInRange f s ∧ a = ((s.ip.toNat + f.size : Nat) : Int)) ∨
    ∃ k, HasOffset f k ∧ branches ∧ ¬TargetInRange f k s ∧ a = branchTarget f k s

/-- What makes a `mov` raise BoundsFault (42_mov.md R130). -/
theorem execMov_bounds {f : Fields} {s t : State} {a : Int} (hs : s.status = .running)
    (h : execMov f s = .next t) (ht : t.status = .faultBounds a) : PairBounds f s a := by
  have h := conclude_bounds h ht fun u hu => by
    obtain ⟨s1, h1, hu⟩ := except_bind_ok.mp hu
    obtain ⟨p, -, hu⟩ := except_bind_ok.mp hu
    obtain ⟨v, -, hu⟩ := except_bind_ok.mp hu
    rw [writeOperand_status hu, advance_status h1, hs]
  rcases except_bind_error.mp h with h | ⟨s1, h1, h⟩
  · obtain ⟨hn, he⟩ := advance_error h; cases he; exact .inl ⟨hn, rfl⟩
  obtain ⟨-, rfl⟩ := advance_ok h1
  rcases except_bind_error.mp h with h | ⟨p, hp, h⟩
  · cases operandPair_error _ _ h
  have hp := (operandPair_ok f p).mp hp
  rcases except_bind_error.mp h with h | ⟨v, -, h⟩
  · obtain ⟨ea, e, hb, rfl⟩ := readOperand_bounds h
    exact .inr ⟨ea, .inr (e ▸ hp.2.1), hb, rfl⟩
  · obtain ⟨ea, e, hb, rfl⟩ := writeOperand_bounds h
    exact .inr ⟨ea, .inl (e ▸ hp.1), hb, rfl⟩

theorem aluStore_status {op : AluOp} {s t : State} {w : Bool} {v : Word} {o : Operand} (h : aluStore op s w v o = .ok t) :
    t.status = s.status := by
  unfold aluStore at h; split at h
  · exact writeOperand_status h
  · cases h; rfl

/-- What makes an `add`, `sub` or `cmp` raise BoundsFault (43_arith.md R140). -/
theorem execAlu_bounds {op : AluOp} {f : Fields} {s t : State} {a : Int} (hs : s.status = .running)
    (h : execAlu op f s = .next t) (ht : t.status = .faultBounds a) : PairBounds f s a := by
  have h := conclude_bounds h ht fun u hu => by
    obtain ⟨s1, h1, hu⟩ := except_bind_ok.mp hu
    obtain ⟨p, -, hu⟩ := except_bind_ok.mp hu
    obtain ⟨v, -, hu⟩ := except_bind_ok.mp hu
    obtain ⟨w, -, hu⟩ := except_bind_ok.mp hu
    obtain ⟨s2, h2, hu⟩ := except_bind_ok.mp hu
    cases hu
    rw [setFlags_status, aluStore_status h2, advance_status h1, hs]
  rcases except_bind_error.mp h with h | ⟨s1, h1, h⟩
  · obtain ⟨hn, he⟩ := advance_error h; cases he; exact .inl ⟨hn, rfl⟩
  obtain ⟨-, rfl⟩ := advance_ok h1
  rcases except_bind_error.mp h with h | ⟨p, hp, h⟩
  · cases operandPair_error _ _ h
  have hp := (operandPair_ok f p).mp hp
  rcases except_bind_error.mp h with h | ⟨v, -, h⟩
  · obtain ⟨ea, e, hb, rfl⟩ := readOperand_bounds h
    exact .inr ⟨ea, .inr (e ▸ hp.2.1), hb, rfl⟩
  rcases except_bind_error.mp h with h | ⟨v, -, h⟩
  · obtain ⟨ea, e, hb, rfl⟩ := readOperand_bounds h
    exact .inr ⟨ea, .inl (e ▸ hp.1), hb, rfl⟩
  rcases except_bind_error.mp h with h | ⟨s2, -, h⟩
  · unfold aluStore at h
    split at h
    · obtain ⟨ea, e, hb, rfl⟩ := writeOperand_bounds h
      exact .inr ⟨ea, .inl (e ▸ hp.1), hb, rfl⟩
    · cases h
  · cases h

theorem requireWired_error {op : OperationTag} {s : State} {a : Int} : requireWired op s ≠ .error (.bounds a) := by
  unfold requireWired; split <;> simp

theorem requireWired_ok {op : OperationTag} {s : State} {u : Unit} (h : requireWired op s = .ok u) :
    isWired s.wired op = true := by
  unfold requireWired at h; split at h
  · assumption
  · cases h

/-- What makes an eligible jump raise BoundsFault (44_jumps.md R180). -/
theorem execJump_bounds {op : OperationTag} {taken : State → Bool} {f : Fields} {s t : State} {a : Int}
    (hs : s.status = .running) (h : execJump op taken f s = .next t) (ht : t.status = .faultBounds a) :
    BranchBounds f s (isWired s.wired op = true ∧ taken (pastInstr f s) = true) a := by
  have h := conclude_bounds h ht fun u hu => by
    obtain ⟨s1, h1, hu⟩ := except_bind_ok.mp hu
    obtain ⟨p, -, hu⟩ := except_bind_ok.mp hu
    obtain ⟨v, -, hu⟩ := except_bind_ok.mp hu
    split at hu
    · rw [branchTo_status hu, advance_status h1, hs]
    · cases hu; rw [advance_status h1, hs]
  rcases except_bind_error.mp h with h | ⟨s1, h1, h⟩
  · obtain ⟨hn, he⟩ := advance_error h; cases he; exact .inl ⟨hn, rfl⟩
  obtain ⟨hn, rfl⟩ := advance_ok h1
  rcases except_bind_error.mp h with h | ⟨k, hk, h⟩
  · cases branchOffset_error _ _ h
  rcases except_bind_error.mp h with h | ⟨u, hu, h⟩
  · exact absurd h requireWired_error
  split at h
  · obtain ⟨hr, ha⟩ := branchTo_bounds rfl hn h
    exact .inr ⟨k, (branchOffset_ok f k).mp hk, ⟨requireWired_ok hu, ‹_›⟩, hr, ha⟩
  · cases h

/-- What makes a loop raise BoundsFault (45_loops.md R190). -/
theorem execLoopWith_bounds {op : OperationTag} {extra : State → Bool} {f : Fields} {s t : State} {a : Int}
    (hs : s.status = .running) (h : execLoopWith op extra f s = .next t) (ht : t.status = .faultBounds a) :
    BranchBounds f s (isWired s.wired op = true ∧
      (s.regs.cx - 1 != 0 && extra (decrementCx (pastInstr f s))) = true) a := by
  have h := conclude_bounds h ht fun u hu => by
    obtain ⟨s1, h1, hu⟩ := except_bind_ok.mp hu
    obtain ⟨p, -, hu⟩ := except_bind_ok.mp hu
    obtain ⟨v, -, hu⟩ := except_bind_ok.mp hu
    simp only at hu
    split at hu
    · rw [branchTo_status hu, decrementCx_status, advance_status h1, hs]
    · cases hu; rw [decrementCx_status, advance_status h1, hs]
  rcases except_bind_error.mp h with h | ⟨s1, h1, h⟩
  · obtain ⟨hn, he⟩ := advance_error h; cases he; exact .inl ⟨hn, rfl⟩
  obtain ⟨hn, rfl⟩ := advance_ok h1
  rcases except_bind_error.mp h with h | ⟨k, hk, h⟩
  · cases branchOffset_error _ _ h
  rcases except_bind_error.mp h with h | ⟨u, hu, h⟩
  · exact absurd h requireWired_error
  simp only at h
  split at h
  · rename_i hb
    obtain ⟨hr, ha⟩ := branchTo_bounds rfl hn h
    exact .inr ⟨k, (branchOffset_ok f k).mp hk, ⟨requireWired_ok hu, hb⟩, hr, ha⟩
  · cases h

/-- A never wired jump raises BoundsFault only for the IP advance (41_cycle.md R113). -/
theorem execNeverWired_bounds {op : OperationTag} {f : Fields} {s t : State} {a : Int} (h : execNeverWired op f s = .next t) (ht : t.status = .faultBounds a) :
    ¬NextInRange f s ∧ a = ((s.ip.toNat + f.size : Nat) : Int) := by
  have h := conclude_bounds h ht fun u hu => by
    obtain ⟨s1, h1, hu⟩ := except_bind_ok.mp hu
    obtain ⟨p, -, hu⟩ := except_bind_ok.mp hu
    cases hu
  rcases except_bind_error.mp h with h | ⟨s1, h1, h⟩
  · obtain ⟨hn, he⟩ := advance_error h; cases he; exact ⟨hn, rfl⟩
  rcases except_bind_error.mp h with h | ⟨k, hk, h⟩
  · cases branchOffset_error _ _ h
  · cases h

end Sys2Proof.Machine
end

