-- ==== Sys2Proof/Laws/PerInstr.lean ====
section
/-! SUPPORT. A statement for every instruction as syntax: the encoding of a well-formed record is as long as its size says
(spec 30_encoding.md R51, R74). -/

namespace Sys2Proof.Laws.EncodingLength

open Sys2Proof Sys2Proof.Machine

/-- The encoding of a well-formed record has the record's size. -/
def Statement (i : Instr) : Prop := WellFormed i → (encode i).length = i.size

/-- The length of a mode byte and its displacement (R58). -/
theorem length_encodeModRm (reg : BitVec 3) (nd : Nat) (o : Operand) (w : Bool) (h : wfRm w nd o = true) :
    (encodeModRm reg nd o).length = 1 + nd := by
  cases o with
  | register c a => simp_all [wfRm, encodeModRm, encodeRm]
  | memory ea =>
    cases ea with
    | direct a => simp_all [wfRm, encodeModRm, encodeRm, wordBytes]
    | calculated b d =>
      simp only [wfRm, Bool.or_eq_true, Bool.and_eq_true, beq_iff_eq] at h
      rcases h with (⟨⟨rfl, -⟩, -⟩ | ⟨rfl, -⟩) | rfl <;> simp [encodeModRm, encodeRm, wordBytes]
  | immediateData v => exact absurd h Bool.false_ne_true
  | labelOffset k => exact absurd h Bool.false_ne_true

/-- The length of an immediate (R59). -/
theorem length_encodeImm (w s : Bool) (o : Operand) (h : wfImmediate w s o = true) :
    (encodeImm w s o).length = immediateBytes w s := by
  cases o with
  | immediateData v => cases w <;> cases s <;> simp [encodeImm, immediateBytes, wordBytes]
  | register | memory | labelOffset => exact absurd h Bool.false_ne_true

/-- The one proof behind all constructors: R74's size formula, format by format. -/
theorem of_wf (i : Instr) : Statement i := by
  intro h
  have h := ((Bool.and_eq_true _ _).mp h).1
  show (encodeFields i.operation i.fields).length = i.fields.size
  revert h
  generalize i.operation = tag
  generalize i.fields = f
  rcases f with ⟨dst, src, ⟨w, d, s⟩, n⟩
  unfold encodeFields
  cases tag.format <;> rcases dst with _ | a <;> rcases src with _ | b <;>
    (try exact fun h => absurd h Bool.false_ne_true)
  · simp only [wfFields, Bool.and_eq_true, beq_iff_eq, List.length_cons]
    rintro ⟨⟨-, hn⟩, h⟩
    cases d with
    | false =>
      simp only [Bool.false_eq_true, if_false, Bool.and_eq_true] at h ⊢
      rw [length_encodeModRm _ _ _ _ h.1]; omega
    | true =>
      simp only [if_true, Bool.and_eq_true] at h ⊢
      rw [length_encodeModRm _ _ _ _ h.2]; omega
  · simp only [wfFields, Bool.and_eq_true, beq_iff_eq, List.length_cons, List.length_append]
    rintro ⟨⟨⟨-, hn⟩, ha⟩, hb⟩
    rw [length_encodeModRm _ _ _ _ ha, length_encodeImm _ _ _ hb]; omega
  · simp only [wfFields, Bool.and_eq_true, beq_iff_eq, List.length_cons, List.length_append]
    rintro ⟨⟨⟨-, hn⟩, ha⟩, hb⟩
    rw [length_encodeModRm _ _ _ _ ha, length_encodeImm _ _ _ hb]; omega
  · simp only [wfFields, Bool.and_eq_true, beq_iff_eq, List.length_cons]
    rintro ⟨⟨⟨-, hn⟩, -⟩, hb⟩
    rw [length_encodeImm _ _ _ hb]; omega
  · simp only [wfFields, Bool.and_eq_true, beq_iff_eq, List.length_cons]
    rintro ⟨⟨⟨-, hn⟩, -⟩, hb⟩
    rw [length_encodeImm _ _ _ hb]; omega
  · simp only [wfFields, Bool.and_eq_true, beq_iff_eq]
    rintro ⟨⟨-, rfl⟩, h⟩
    split at h
    · cases a <;> simp_all [wordBytes, accumulator]
    · simp [wordBytes]
    · cases h
  · rcases a with _ | _ | _ | k <;> first
      | exact fun h => absurd h Bool.false_ne_true
      | (simp only [wfFields, Bool.and_eq_true, beq_iff_eq]; rintro ⟨-, rfl⟩; rfl)
  · rcases a with _ | _ | _ | k <;> exact fun h => absurd h Bool.false_ne_true
  · simp only [wfFields, Bool.and_eq_true, beq_iff_eq]
    rintro ⟨-, rfl⟩
    rfl

theorem movRmReg (f : Fields) : Statement (.movRmReg f) := of_wf _
theorem movImmRm (f : Fields) : Statement (.movImmRm f) := of_wf _
theorem movImmReg (f : Fields) : Statement (.movImmReg f) := of_wf _
theorem movMemToAcc (f : Fields) : Statement (.movMemToAcc f) := of_wf _
theorem movAccToMem (f : Fields) : Statement (.movAccToMem f) := of_wf _
theorem addRmReg (f : Fields) : Statement (.addRmReg f) := of_wf _
theorem addImmRm (f : Fields) : Statement (.addImmRm f) := of_wf _
theorem addImmAcc (f : Fields) : Statement (.addImmAcc f) := of_wf _
theorem subRmReg (f : Fields) : Statement (.subRmReg f) := of_wf _
theorem subImmRm (f : Fields) : Statement (.subImmRm f) := of_wf _
theorem subImmAcc (f : Fields) : Statement (.subImmAcc f) := of_wf _
theorem cmpRmReg (f : Fields) : Statement (.cmpRmReg f) := of_wf _
theorem cmpImmRm (f : Fields) : Statement (.cmpImmRm f) := of_wf _
theorem cmpImmAcc (f : Fields) : Statement (.cmpImmAcc f) := of_wf _
theorem jo (f : Fields) : Statement (.jo f) := of_wf _
theorem jno (f : Fields) : Statement (.jno f) := of_wf _
theorem jb (f : Fields) : Statement (.jb f) := of_wf _
theorem jnb (f : Fields) : Statement (.jnb f) := of_wf _
theorem je (f : Fields) : Statement (.je f) := of_wf _
theorem jne (f : Fields) : Statement (.jne f) := of_wf _
theorem jbe (f : Fields) : Statement (.jbe f) := of_wf _
theorem ja (f : Fields) : Statement (.ja f) := of_wf _
theorem js (f : Fields) : Statement (.js f) := of_wf _
theorem jns (f : Fields) : Statement (.jns f) := of_wf _
theorem jp (f : Fields) : Statement (.jp f) := of_wf _
theorem jnp (f : Fields) : Statement (.jnp f) := of_wf _
theorem jl (f : Fields) : Statement (.jl f) := of_wf _
theorem jnl (f : Fields) : Statement (.jnl f) := of_wf _
theorem jle (f : Fields) : Statement (.jle f) := of_wf _
theorem jg (f : Fields) : Statement (.jg f) := of_wf _
theorem loopnz (f : Fields) : Statement (.loopnz f) := of_wf _
theorem loopz (f : Fields) : Statement (.loopz f) := of_wf _
theorem loop (f : Fields) : Statement (.loop f) := of_wf _
theorem jcxz (f : Fields) : Statement (.jcxz f) := of_wf _
theorem hlt (f : Fields) : Statement (.hlt f) := of_wf _

end Sys2Proof.Laws.EncodingLength
end

