-- ==== Sys2Proof/Tests/Slice0.lean ====
section
/-! SUPPORT. Tests of one step or one decoding each, with words written out from the encodings of spec/30_encoding.md and results
taken from spec/95_test_vectors.md (V and W numbers), the well-formedness smoke tests, and a witness for the hypotheses of every
statement. -/

namespace Sys2Proof.Tests

open Sys2Proof Sys2Proof.Machine

/-! ### Helpers -/

def noFlags : InstructionFlags := ⟨false, false, false⟩

/-- A cell, whole. -/
def full (c : RegCell) : Operand := .register c .full

/-- The record of a jump or loop. -/
def jumpRecord (k : Byte) : Fields := ⟨some (.labelOffset k), none, noFlags, 2⟩

/-- A two-operand record. -/
def pairRecord (d s : Operand) (wide : Bool) (size : Nat) : Fields := ⟨some d, some s, ⟨wide, false, false⟩, size⟩

/-- The zeroed machine with bytes placed at an address and IP there. -/
def ready (s : State) (a : Word) (bytes : List Byte) : State := placeAtIp (pokeIp s a) bytes

/-- The reset state with some cells preset. -/
def withRegs (r : Regs) : State := { State.reset with regs := r }

/-- The reset state with the flags preset. -/
def withFlags (z n : Bool) : State := pokeFlags State.reset z n

/-- All eligible operations wired. -/
def allWired : Wired := ⟨true, true, true, true, true, true, true⟩

def zeroRegs : Regs := ⟨0, 0, 0, 0, 0, 0, 0, 0⟩

/-! ### Every check of WellFormed refuses an ill-formed record -/

/-- F-RM-REG has no `s` bit (R52). -/
theorem test_wf_sext_in_rmReg : ¬WellFormed (.movRmReg ⟨some (full .ax), some (full .bx), ⟨true, true, true⟩, 2⟩) := by decide

/-- A wide operand is a whole cell (R60). -/
theorem test_wf_register_width : ¬WellFormed (.movRmReg ⟨some (.register .ax .low), some (full .bx), ⟨true, true, false⟩, 2⟩) := by decide

/-- No byte view of `sp` exists (R60). -/
theorem test_wf_byte_view : ¬WellFormed (.movRmReg ⟨some (.register .sp .low), some (.register .ax .low), ⟨false, true, false⟩, 2⟩) := by decide

/-- The `reg` field names a register, so two memory operands do not fit (R61). -/
theorem test_wf_register_slot : ¬WellFormed (.addRmReg ⟨some (.memory (.direct 0)), some (.memory (.direct 1)), ⟨true, false, false⟩, 4⟩) := by decide

/-- The size of a register form is 2 (R74). -/
theorem test_wf_size_rmReg : ¬WellFormed (.movRmReg ⟨some (full .ax), some (full .bx), ⟨true, true, false⟩, 3⟩) := by decide

/-- A direct reference takes two displacement bytes (R58). -/
theorem test_wf_direct_displacement : ¬WellFormed (.movRmReg ⟨some (full .ax), some (.memory (.direct 7)), ⟨true, true, false⟩, 3⟩) := by decide

/-- `[bp]` has no form without a displacement byte (R58). -/
theorem test_wf_bp_without_displacement : ¬WellFormed (.movRmReg ⟨some (full .ax), some (.memory (.calculated .bp 0)), ⟨true, true, false⟩, 2⟩) := by decide

/-- 200 does not fit one displacement byte (R58). -/
theorem test_wf_displacement_range : ¬WellFormed (.movRmReg ⟨some (full .ax), some (.memory (.calculated .bx 200)), ⟨true, true, false⟩, 3⟩) := by decide

/-- F-IMM-RM has `dir` 0 (R52). -/
theorem test_wf_dir_in_immRm : ¬WellFormed (.addImmRm ⟨some (full .bx), some (.immediateData 10), ⟨true, true, true⟩, 3⟩) := by decide

/-- A sign-extended byte is -128 to 127 (R59). -/
theorem test_wf_sext_value : ¬WellFormed (.addImmRm ⟨some (full .bx), some (.immediateData 128), ⟨true, false, true⟩, 3⟩) := by decide

/-- A full immediate word takes two bytes (R59, R74). -/
theorem test_wf_size_immRm : ¬WellFormed (.addImmRm ⟨some (full .bx), some (.immediateData 10), ⟨true, false, false⟩, 3⟩) := by decide

/-- The source of an immediate form is an immediate (R62). -/
theorem test_wf_immediate_slot : ¬WellFormed (.cmpImmRm ⟨some (full .bx), some (full .ax), ⟨true, false, false⟩, 4⟩) := by decide

/-- A label is no r/m operand (R62). -/
theorem test_wf_label_destination : ¬WellFormed (.subImmRm ⟨some (.labelOffset 1), some (.immediateData 1), ⟨false, false, false⟩, 3⟩) := by decide

/-- F-MOV-IMM-RM has no `s` bit (R52). -/
theorem test_wf_sext_in_movImmRm : ¬WellFormed (.movImmRm ⟨some (.memory (.direct 1000)), some (.immediateData 1), ⟨true, false, true⟩, 6⟩) := by decide

/-- F-IMM-REG has `dir` 1 (R52). -/
theorem test_wf_dir_in_immReg : ¬WellFormed (.movImmReg ⟨some (full .cx), some (.immediateData 12), ⟨true, false, false⟩, 3⟩) := by decide

/-- A byte immediate is below 256 (R59). -/
theorem test_wf_byte_immediate : ¬WellFormed (.movImmReg ⟨some (.register .cx .low), some (.immediateData 256), ⟨false, true, false⟩, 2⟩) := by decide

/-- `mov cx, 12` has size 3 (R64). -/
theorem test_wf_size_immReg : ¬WellFormed (.movImmReg ⟨some (full .cx), some (.immediateData 12), ⟨true, true, false⟩, 2⟩) := by decide

/-- F-IMM-ACC writes the accumulator only (R65). -/
theorem test_wf_accumulator : ¬WellFormed (.addImmAcc ⟨some (full .bx), some (.immediateData 1), ⟨true, true, false⟩, 3⟩) := by decide

/-- F-MEM-ACC is 3 bytes long at either width (R66). -/
theorem test_wf_size_memAcc : ¬WellFormed (.movMemToAcc ⟨some (.register .ax .low), some (.memory (.direct 5)), ⟨false, true, false⟩, 2⟩) := by decide

/-- F-MEM-ACC holds a direct address (R66). -/
theorem test_wf_calculated_memAcc : ¬WellFormed (.movMemToAcc ⟨some (full .ax), some (.memory (.calculated .bx 5)), ⟨true, true, false⟩, 3⟩) := by decide

/-- The load form has `dir` 1 (R66). -/
theorem test_wf_direction_load : ¬WellFormed (.movMemToAcc ⟨some (.memory (.direct 5)), some (full .ax), ⟨true, false, false⟩, 3⟩) := by decide

/-- The store form has `dir` 0 (R66). -/
theorem test_wf_direction_store : ¬WellFormed (.movAccToMem ⟨some (full .ax), some (.memory (.direct 5)), ⟨true, true, false⟩, 3⟩) := by decide

/-- A jump has no flag (R52). -/
theorem test_wf_flags_rel8 : ¬WellFormed (.je ⟨some (.labelOffset 3), none, ⟨true, false, false⟩, 2⟩) := by decide

/-- A jump is 2 bytes long (R67). -/
theorem test_wf_size_rel8 : ¬WellFormed (.loop ⟨some (.labelOffset 3), none, noFlags, 3⟩) := by decide

/-- A jump holds a label (R67). -/
theorem test_wf_label_slot : ¬WellFormed (.jne ⟨some (.immediateData 3), none, noFlags, 2⟩) := by decide

/-- A two-operand record has both operands (R52). -/
theorem test_wf_absent_operand : ¬WellFormed (.addRmReg ⟨some (full .ax), none, ⟨true, true, false⟩, 2⟩) := by decide

/-- `hlt` has no operand (R68). -/
theorem test_wf_hlt_operand : ¬WellFormed (.hlt ⟨some (full .ax), none, noFlags, 1⟩) := by decide

/-- `hlt` is 1 byte long (R68). -/
theorem test_wf_size_hlt : ¬WellFormed (.hlt ⟨none, none, noFlags, 2⟩) := by decide

/-! ### Every constructor's decoding, from words written out by hand -/

/-- `1000 1010`, `01 100 111`, `00000001`: `mov ah, [bx + 1]` (V4). -/
theorem test_decode_movRmReg : decode [0x8A, 0x67, 0x01] =
    some (.movRmReg ⟨some (.register .ax .high), some (.memory (.calculated .bx 1)), ⟨false, true, false⟩, 3⟩) := by decide

/-- `1100 0111`, `00 000 110`, address 1000, 4660: `mov word [1000], 4660` (V9). -/
theorem test_decode_movImmRm : decode [0xC7, 0x06, 0xE8, 0x03, 0x34, 0x12] =
    some (.movImmRm ⟨some (.memory (.direct 1000)), some (.immediateData 4660), ⟨true, false, false⟩, 6⟩) := by decide

/-- `1011 1 001`, 12: `mov cx, 12` (W4, the source's own example). -/
theorem test_decode_movImmReg : decode [0xB9, 0x0C, 0x00] =
    some (.movImmReg ⟨some (full .cx), some (.immediateData 12), ⟨true, true, false⟩, 3⟩) := by decide

/-- `1010000 1`, address 2555: `mov ax, [2555]` (V15). -/
theorem test_decode_movMemToAcc : decode [0xA1, 0xFB, 0x09] =
    some (.movMemToAcc ⟨some (full .ax), some (.memory (.direct 2555)), ⟨true, true, false⟩, 3⟩) := by decide

/-- `1010001 0`, address 15: `mov [15], al` (V18). -/
theorem test_decode_movAccToMem : decode [0xA2, 0x0F, 0x00] =
    some (.movAccToMem ⟨some (.memory (.direct 15)), some (.register .ax .low), ⟨false, false, false⟩, 3⟩) := by decide

/-- `000000 1 1`, `00 010 010`: `add dx, [bp + si]` (V20). -/
theorem test_decode_addRmReg : decode [0x03, 0x12] =
    some (.addRmReg ⟨some (full .dx), some (.memory (.calculated .bpSi 0)), ⟨true, true, false⟩, 2⟩) := by decide

/-- `100000 1 1`, `11 000 011`, 0xFF: `add bx, 65535` (V24). -/
theorem test_decode_addImmRm : decode [0x83, 0xC3, 0xFF] =
    some (.addImmRm ⟨some (full .bx), some (.immediateData 65535), ⟨true, false, true⟩, 3⟩) := by decide

/-- `0000010 1`, 1000: `add ax, 1000` (V28). -/
theorem test_decode_addImmAcc : decode [0x05, 0xE8, 0x03] =
    some (.addImmAcc ⟨some (full .ax), some (.immediateData 1000), ⟨true, true, false⟩, 3⟩) := by decide

/-- `001010 1 1`, `01 011 110`, 0: `sub bx, [bp]` (V31). -/
theorem test_decode_subRmReg : decode [0x2B, 0x5E, 0x00] =
    some (.subRmReg ⟨some (full .bx), some (.memory (.calculated .bp 0)), ⟨true, true, false⟩, 3⟩) := by decide

/-- `100000 0 1`, `10 101 100`, -32768, 43981: `sub word [si - 32768], 43981` (V33). -/
theorem test_decode_subImmRm : decode [0x81, 0xAC, 0x00, 0x80, 0xCD, 0xAB] =
    some (.subImmRm ⟨some (.memory (.calculated .si 0x8000)), some (.immediateData 43981), ⟨true, false, false⟩, 6⟩) := by decide

/-- `0010110 0`, 128: `sub al, 128` (V35). -/
theorem test_decode_subImmAcc : decode [0x2C, 0x80] =
    some (.subImmAcc ⟨some (.register .ax .low), some (.immediateData 128), ⟨false, true, false⟩, 2⟩) := by decide

/-- `001110 0 1`, `11 001 011`: `cmp bx, cx` (V36). -/
theorem test_decode_cmpRmReg : decode [0x39, 0xCB] =
    some (.cmpRmReg ⟨some (full .bx), some (full .cx), ⟨true, false, false⟩, 2⟩) := by decide

/-- `100000 0 0`, `00 111 110`, address 4834, 29: `cmp byte [4834], 29` (V39). -/
theorem test_decode_cmpImmRm : decode [0x80, 0x3E, 0xE2, 0x12, 0x1D] =
    some (.cmpImmRm ⟨some (.memory (.direct 4834)), some (.immediateData 29), ⟨false, false, false⟩, 5⟩) := by decide

/-- `0011110 1`, 32768: `cmp ax, 32768` (V42). -/
theorem test_decode_cmpImmAcc : decode [0x3D, 0x00, 0x80] =
    some (.cmpImmAcc ⟨some (full .ax), some (.immediateData 32768), ⟨true, true, false⟩, 3⟩) := by decide

/-- `0111 0000` and a signed offset: `jo` (R69). -/
theorem test_decode_jo : decode [0x70, 0xFC] =
    some (.jo (jumpRecord 0xFC)) := by decide

/-- `0111 0001` and a signed offset: `jno` (R69). -/
theorem test_decode_jno : decode [0x71, 0xFC] =
    some (.jno (jumpRecord 0xFC)) := by decide

/-- `0111 0010` and a signed offset: `jb` (R69). -/
theorem test_decode_jb : decode [0x72, 0xFC] =
    some (.jb (jumpRecord 0xFC)) := by decide

/-- `0111 0011` and a signed offset: `jnb` (R69). -/
theorem test_decode_jnb : decode [0x73, 0xFC] =
    some (.jnb (jumpRecord 0xFC)) := by decide

/-- `0111 0100` and a signed offset: `je` (R69). -/
theorem test_decode_je : decode [0x74, 0xFC] =
    some (.je (jumpRecord 0xFC)) := by decide

/-- `0111 0101` and a signed offset: `jne` (R69). -/
theorem test_decode_jne : decode [0x75, 0xFC] =
    some (.jne (jumpRecord 0xFC)) := by decide

/-- `0111 0110` and a signed offset: `jbe` (R69). -/
theorem test_decode_jbe : decode [0x76, 0xFC] =
    some (.jbe (jumpRecord 0xFC)) := by decide

/-- `0111 0111` and a signed offset: `ja` (R69). -/
theorem test_decode_ja : decode [0x77, 0xFC] =
    some (.ja (jumpRecord 0xFC)) := by decide

/-- `0111 1000` and a signed offset: `js` (R69). -/
theorem test_decode_js : decode [0x78, 0xFC] =
    some (.js (jumpRecord 0xFC)) := by decide

/-- `0111 1001` and a signed offset: `jns` (R69). -/
theorem test_decode_jns : decode [0x79, 0xFC] =
    some (.jns (jumpRecord 0xFC)) := by decide

/-- `0111 1010` and a signed offset: `jp` (R69). -/
theorem test_decode_jp : decode [0x7A, 0xFC] =
    some (.jp (jumpRecord 0xFC)) := by decide

/-- `0111 1011` and a signed offset: `jnp` (R69). -/
theorem test_decode_jnp : decode [0x7B, 0xFC] =
    some (.jnp (jumpRecord 0xFC)) := by decide

/-- `0111 1100` and a signed offset: `jl` (R69). -/
theorem test_decode_jl : decode [0x7C, 0xFC] =
    some (.jl (jumpRecord 0xFC)) := by decide

/-- `0111 1101` and a signed offset: `jnl` (R69). -/
theorem test_decode_jnl : decode [0x7D, 0xFC] =
    some (.jnl (jumpRecord 0xFC)) := by decide

/-- `0111 1110` and a signed offset: `jle` (R69). -/
theorem test_decode_jle : decode [0x7E, 0xFC] =
    some (.jle (jumpRecord 0xFC)) := by decide

/-- `0111 1111` and a signed offset: `jg` (R69). -/
theorem test_decode_jg : decode [0x7F, 0xFC] =
    some (.jg (jumpRecord 0xFC)) := by decide

/-- `1110 0000` and a signed offset: `loopnz` (R69). -/
theorem test_decode_loopnz : decode [0xE0, 0x05] =
    some (.loopnz (jumpRecord 5)) := by decide

/-- `1110 0001` and a signed offset: `loopz` (R69). -/
theorem test_decode_loopz : decode [0xE1, 0x05] =
    some (.loopz (jumpRecord 5)) := by decide

/-- `1110 0010` and a signed offset: `loop` (R69). -/
theorem test_decode_loop : decode [0xE2, 0x05] =
    some (.loop (jumpRecord 5)) := by decide

/-- `1110 0011` and a signed offset: `jcxz` (R69). -/
theorem test_decode_jcxz : decode [0xE3, 0x05] =
    some (.jcxz (jumpRecord 5)) := by decide

/-- `1111 0100`: `hlt` (V51). -/
theorem test_decode_hlt : decode [0xF4] =
    some (.hlt ⟨none, none, noFlags, 1⟩) := by decide

/-- Windows that decode to None (V60 to V72). -/
theorem test_decode_none :
    ∀ window ∈ [[0x90], [0xEB, 0xFE], [0x8C, 0xD8], [0x26], [0xF3], [0xFF], [0x0F], [0x80, 0xC8, 0x01], [0x80, 0xD0, 0x01],
      [0xC6, 0xC8, 0x01], [0xC7, 0x48, 0x00, 0x01, 0x00], [0xB8, 0x01], [0x8B], [0x8B, 0x46],
      [0x81, 0x06, 0xE8, 0x03, 0x34], []], decode window = none := by decide

/-- Byte registers of the mode byte: fields 4 to 7 are the high bytes of cells 0 to 3 (W1, the w = 0 column). -/
theorem test_byte_registers :
    [0xC0, 0xC1, 0xC2, 0xC3, 0xC4, 0xC5, 0xC6, 0xC7].map (fun m => (decode [0x8A, m]).map formatText) =
      ["mov al, al", "mov al, cl", "mov al, dl", "mov al, bl", "mov al, ah", "mov al, ch", "mov al, dh",
       "mov al, bh"].map some := by decide

/-- The table numbers byte 0 of a 16-bit word in bits 15:8: `hlt` is 0xF400. -/
theorem test_table_word : decodeTableWord 16 0xF400 = some (.hlt ⟨none, none, noFlags, 1⟩) ∧
    stepState (State.reset.withFetchWord 16 0xF400) = { State.reset with status := .halted } := by decide

/-! ### One step each -/

/-- V80: a byte load into `ah` keeps `al`. -/
theorem test_movRmReg_high :
    let t := stepState (pokeByte (ready (withRegs ⟨0x34, 0, 0, 0x3E8, 0, 0, 0, 0⟩) 0 [0x8A, 0x67, 0x01]) 1001 0x12)
    t.regs.ax = 0x1234 ∧ t.ip = 3 := by decide

/-- V81: the address comes from the old `bx`, which is also the destination. -/
theorem test_movRmReg_source_is_base :
    (stepState (pokeByte (pokeByte (ready (withRegs ⟨0, 0, 0, 0x100, 0, 0, 0, 0⟩) 0 [0x8B, 0x1F]) 0x100 0xCD) 0x101 0xAB)).regs.bx =
      0xABCD := by decide

/-- V84: a byte store writes one byte. -/
theorem test_movImmRm_one_byte :
    let t := stepState (pokeByte (ready (withRegs ⟨0, 0, 0, 0, 0, 0x100, 0, 0x10⟩) 0 [0xC6, 0x03, 0x07]) 0x111 0x99)
    readByte t.mem 0x110 = 0x07 ∧ readByte t.mem 0x111 = 0x99 := by decide

/-- W4: `mov cx, 12` on the zeroed machine. -/
theorem test_movImmReg :
    stepState (load State.reset [0xB9, 0x0C, 0x00]) =
      { load State.reset [0xB9, 0x0C, 0x00] with regs := { zeroRegs with cx := 12 }, ip := 3 } := by decide

/-- V89: `mov ax, 32768` keeps Z = 1 and S = 0. -/
theorem test_mov_keeps_flags :
    let t := stepState (ready (withFlags true false) 0 [0xB8, 0x00, 0x80])
    t.regs.ax = 0x8000 ∧ t.zf = true ∧ t.sf = false := by decide

/-- V86: little-endian load. -/
theorem test_movMemToAcc :
    (stepState (pokeByte (pokeByte (load State.reset [0xA1, 0xE8, 0x03]) 1000 0x34) 1001 0x12)).regs.ax = 0x1234 := by decide

/-- V170: a word at 0xFFFF is out of bounds. -/
theorem test_movMemToAcc_top_word :
    stepState (load State.reset [0xA1, 0xFF, 0xFF]) =
      { load State.reset [0xA1, 0xFF, 0xFF] with status := .faultBounds 65535 } := by decide

/-- V85: a byte store of `al`. -/
theorem test_movAccToMem :
    let t := stepState (pokeByte (ready (withRegs ⟨0xBBAA, 0, 0, 0, 0, 0, 0, 0⟩) 0 [0xA2, 0x0F, 0x00]) 16 0x55)
    readByte t.mem 15 = 0xAA ∧ readByte t.mem 16 = 0x55 := by decide

/-- V100: 0x7FFF + 1. -/
theorem test_addRmReg_sign :
    let t := stepState (ready (withRegs ⟨0x7FFF, 0, 0, 1, 0, 0, 0, 0⟩) 0 [0x01, 0xD8])
    t.regs.ax = 0x8000 ∧ t.zf = false ∧ t.sf = true := by decide

/-- V106: `add ah, al` takes its flags from the 8-bit result and keeps `al`. -/
theorem test_addRmReg_high_byte :
    let t := stepState (ready (withRegs ⟨0x01FF, 0, 0, 0, 0, 0, 0, 0⟩) 0 [0x02, 0xE0])
    t.regs.ax = 0x00FF ∧ t.zf = true ∧ t.sf = false := by decide

/-- V105: `add bh, 1` sets S from bit 7 of `bh`. -/
theorem test_addImmRm_high_byte :
    let t := stepState (ready (withRegs ⟨0, 0, 0, 0x7F00, 0, 0, 0, 0⟩) 0 [0x80, 0xC7, 0x01])
    t.regs.bx = 0x8000 ∧ t.zf = false ∧ t.sf = true := by decide

/-- V104: `add al, 1` keeps `ah`. -/
theorem test_addImmAcc_low_byte :
    let t := stepState (ready (withRegs ⟨0x12FF, 0, 0, 0, 0, 0, 0, 0⟩) 0 [0x04, 0x01])
    t.regs.ax = 0x1200 ∧ t.zf = true ∧ t.sf = false := by decide

/-- V102: 0 - 1, destination minus source. -/
theorem test_subRmReg_borrow :
    let t := stepState (ready (withRegs ⟨0, 0, 0, 1, 0, 0, 0, 0⟩) 0 [0x29, 0xD8])
    t.regs.ax = 0xFFFF ∧ t.zf = false ∧ t.sf = true := by decide

/-- V109: `sub word [bx], 1` with 0x8000 there. -/
theorem test_subImmRm_word :
    let t := stepState (pokeByte (ready (withRegs ⟨0, 0, 0, 1000, 0, 0, 0, 0⟩) 0 [0x83, 0x2F, 0x01]) 1001 0x80)
    readByte t.mem 1000 = 0xFF ∧ readByte t.mem 1001 = 0x7F ∧ t.zf = false ∧ t.sf = false := by decide

/-- V110: `sub byte [bx], 1` leaves the next byte. -/
theorem test_subImmRm_byte :
    let t := stepState (pokeByte (ready (withRegs ⟨0, 0, 0, 1000, 0, 0, 0, 0⟩) 0 [0x80, 0x2F, 0x01]) 1001 0x80)
    readByte t.mem 1000 = 0xFF ∧ readByte t.mem 1001 = 0x80 ∧ t.sf = true := by decide

/-- V115: 0x80 - 1 in `al`. -/
theorem test_subImmAcc :
    let t := stepState (ready (withRegs ⟨0x80, 0, 0, 0, 0, 0, 0, 0⟩) 0 [0x2C, 0x01])
    t.regs.ax = 0x7F ∧ t.zf = false ∧ t.sf = false := by decide

/-- V111: `cmp bx, cx` stores nothing. -/
theorem test_cmpRmReg :
    let s := withRegs ⟨0, 5, 0, 3, 0, 0, 0, 0⟩
    let t := stepState (ready s 0 [0x39, 0xCB])
    t.regs = s.regs ∧ t.zf = false ∧ t.sf = true := by decide

/-- V113: `cmp byte [4834], 29`. -/
theorem test_cmpImmRm :
    let t := stepState (pokeByte (load State.reset [0x80, 0x3E, 0xE2, 0x12, 0x1D]) 4834 29)
    t.zf = true ∧ t.sf = false ∧ readByte t.mem 4834 = 29 ∧ t.ip = 5 := by decide

/-- V112: `cmp al, 5` with `al` = 4. -/
theorem test_cmpImmAcc :
    let t := stepState (ready (withRegs ⟨4, 0, 0, 0, 0, 0, 0, 0⟩) 0 [0x3C, 0x05])
    t.regs.ax = 4 ∧ t.zf = false ∧ t.sf = true := by decide

/-- V130, V131: `74 03` at 17. -/
theorem test_je :
    (stepState (ready (withFlags true false) 17 [0x74, 0x03])).ip = 22 ∧
      (stepState (ready (withFlags false true) 17 [0x74, 0x03])).ip = 19 := by decide

/-- V140: with the smallest WIRED `je` raises UnimplementedFault and IP stays. -/
theorem test_je_unwired :
    stepState (ready { withFlags true false with wired := smallestWired } 17 [0x74, 0x03]) =
      { ready { withFlags true false with wired := smallestWired } 17 [0x74, 0x03] with
        status := .faultUnimplemented .je } := by decide

/-- V132, V133: `75 FC` at 6. -/
theorem test_jne :
    (stepState (ready (withFlags false true) 6 [0x75, 0xFC])).ip = 4 ∧
      (stepState (ready (withFlags true false) 6 [0x75, 0xFC])).ip = 8 := by decide

/-- V179, V180: `75 80` at 0x10 faults when taken only. -/
theorem test_jne_below_zero :
    (stepState (ready (withFlags false false) 0x10 [0x75, 0x80])).status = .faultBounds (-110) ∧
      (stepState (ready (withFlags true false) 0x10 [0x75, 0x80])).ip = 0x12 := by decide

/-- V134: `78 10` at 0. -/
theorem test_js :
    (stepState (ready (withFlags false true) 0 [0x78, 0x10])).ip = 18 ∧
      (stepState (ready (withFlags true false) 0 [0x78, 0x10])).ip = 2 := by decide

/-- V136, V178: the top address is a legal target, the next is not. -/
theorem test_jns_top :
    (stepState (ready (withFlags true false) 0xFFF0 [0x79, 0x0D])).ip = 0xFFFF ∧
      (stepState (ready (withFlags true false) 0xFFF0 [0x79, 0x7F])).status = .faultBounds 65649 := by decide

/-- V137: `E3 05` with `jcxz` wired. -/
theorem test_jcxz :
    let s := { State.reset with wired := allWired }
    (stepState (ready s 0 [0xE3, 0x05])).ip = 7 ∧
      (stepState (ready (pokeRegister s .cx .full 1) 0 [0xE3, 0x05])).ip = 2 := by decide

/-- V138: `jcxz` is not in the default WIRED. -/
theorem test_jcxz_default :
    (stepState (load State.reset [0xE3, 0x05])).status = .faultUnimplemented .jcxz := by decide

/-- V139: each of the twelve raises UnimplementedFault although all that may be wired is; IP stays 0. -/
theorem test_never_wired :
    ∀ b ∈ [0x70, 0x71, 0x72, 0x73, 0x76, 0x77, 0x7A, 0x7B, 0x7C, 0x7D, 0x7E, 0x7F],
      let t := stepState (ready { State.reset with wired := allWired } 0 [b, 0x00])
      statusCode t.status = 3 ∧ t.ip = 0 := by decide

/-- V152: `loop` with `cx` = 0 branches with `cx` = 0xFFFF. -/
theorem test_loop_wraps :
    let t := stepState (load State.reset [0xE2, 0xFE])
    t.regs.cx = 0xFFFF ∧ t.ip = 0 := by decide

/-- V181: a target below 0 undoes the decrement. -/
theorem test_loop_undone :
    stepState (ready (withRegs ⟨0, 5, 0, 0, 0, 0, 0, 0⟩) 0x10 [0xE2, 0x80]) =
      { ready (withRegs ⟨0, 5, 0, 0, 0, 0, 0, 0⟩) 0x10 [0xE2, 0x80] with status := .faultBounds (-110) } := by decide

/-- V154, V155: `E1 FE` with `cx` = 2. -/
theorem test_loopz :
    let s := withRegs ⟨0, 2, 0, 0, 0, 0, 0, 0⟩
    (stepState (ready (pokeFlags s true false) 0 [0xE1, 0xFE])).ip = 0 ∧
      (stepState (ready s 0 [0xE1, 0xFE])).ip = 2 ∧ (stepState (ready s 0 [0xE1, 0xFE])).regs.cx = 1 := by decide

/-- V156, V157: `E0 FE` with `cx` = 2. -/
theorem test_loopnz :
    let s := withRegs ⟨0, 2, 0, 0, 0, 0, 0, 0⟩
    (stepState (ready s 0 [0xE0, 0xFE])).ip = 0 ∧
      (stepState (ready (pokeFlags s true false) 0 [0xE0, 0xFE])).ip = 2 := by decide

/-- V176: `hlt` at 0xFFFF halts with IP there. -/
theorem test_hlt_top :
    stepState (ready State.reset 0xFFFF [0xF4]) = { ready State.reset 0xFFFF [0xF4] with status := .halted } := by decide

/-- V175, V177: at 0xFFFE `mov al, 1` raises BoundsFault and `B8 01` does not decode. -/
theorem test_past_the_top :
    (stepState (ready State.reset 0xFFFE [0xB0, 0x01])).status = .faultBounds 65536 ∧
      (stepState (ready State.reset 0xFFFE [0xB8, 0x01])).status = .stoppedUndecodable := by decide

/-- V186: an immediate destination raises OperandFault. -/
theorem test_injected_record :
    exec (.movRmReg (pairRecord (.immediateData 1) (full .ax) true 2)) State.reset =
      .next { State.reset with status := .faultOperand } := rfl

/-! ### Witnesses: for every statement with hypotheses, a state and operands that meet them all, at the edges of their ranges -/

/-- `mov ax, bx`. -/
def movAxBx : Fields := ⟨some (full .ax), some (full .bx), ⟨true, true, false⟩, 2⟩

/-- A word operation whose destination is the last word of memory. -/
def storeTop : Fields := pairRecord (.memory (.direct 0xFFFE)) (full .ax) true 3

/-- A word operation whose destination leaves memory by one byte. -/
def storeOut : Fields := pairRecord (.memory (.direct 0xFFFF)) (full .ax) true 3

/-- A byte operation whose source is one byte below memory. -/
def loadOut : Fields := pairRecord (.register .ax .low) (.memory (.calculated .bx 0xFFFF)) false 3

/-- The highest IP from which a 3-byte instruction ends in range. -/
def lowTop : State := pokeIp State.reset 65532

/-- A machine with everything wired, IP at `a`, and `cx` and ZF as given; SF is the opposite of ZF. -/
def branching (a cx : Word) (z : Bool) : State :=
  { State.reset with regs := { zeroRegs with cx := cx }, ip := a, zf := z, sf := !z, wired := allWired }

theorem witness_DecodeEncodeRoundTrip :
    WellFormed (.movImmRm (pairRecord (.memory (.direct 0xFFFF)) (.immediateData 0xFFFF) true 6)) ∧
      WellFormed (.jne (jumpRecord 0x80)) ∧ WellFormed (.hlt ⟨none, none, noFlags, 1⟩) := by decide

theorem witness_DecodedRecordReencodes :
    decode [0xF4] = some (.hlt ⟨none, none, noFlags, 1⟩) ∧
      decode [0xC7, 0x06, 0xFF, 0xFF, 0xFF, 0xFF] =
        some (.movImmRm (pairRecord (.memory (.direct 0xFFFF)) (.immediateData 0xFFFF) true 6)) := by decide

theorem witness_ReservedSubDispatchIsNone :
    (0x80 ≤ (0x80#8).toNat ∧ (0x83#8).toNat ≤ 0x83) ∧
      (regField 0x08 ≠ 0 ∧ regField 0x08 ≠ 5 ∧ regField 0x08 ≠ 7) ∧
      (regField 0x30 ≠ 0 ∧ regField 0x30 ≠ 5 ∧ regField 0x30 ≠ 7) ∧
      (0xC6 ≤ (0xC6#8).toNat ∧ (0xC7#8).toNat ≤ 0xC7) ∧ regField 0x08 ≠ 0 ∧ regField 0x38 ≠ 0 := by decide

theorem witness_CutInstructionIsNone :
    WellFormed (.movImmRm (pairRecord (.memory (.direct 1000)) (.immediateData 4660) true 6)) ∧ 5 < 6 ∧
      WellFormed (.hlt ⟨none, none, noFlags, 1⟩) ∧ 0 < 1 := by decide

theorem witness_DecodingIsPure :
    (([0x90, 0xB9, 0x0C, 0x00, 1, 2, 3, 4] : List Byte).drop 1).take 6 =
      (([0xB9, 0x0C, 0x00, 1, 2, 3, 5] : List Byte).drop 0).take 6 := by decide

theorem witness_RegisterWriteRule :
    RegCell.cx ≠ .ax ∧ RegCell.di ≠ .bx := by decide

theorem witness_MemReadRule :
    65535 ≤ 65535 ∧ 65534 + 1 ≤ 65535 ∧ ((-1 : Int) < 0 ∨ 65535 < (-1 : Int)) ∧
      ((65536 : Int) < 0 ∨ 65535 < (65536 : Int)) ∧ ((65535 : Int) < 0 ∨ 65535 < (65535 : Int) + 1) := by decide

theorem witness_MemWriteChangesItsBytesOnly :
    (0 ≤ (65534 : Int) ∧ (65534 : Int) + (accessBytes true : Int) - 1 ≤ 65535) ∧
      (0 ≤ (65535 : Int) ∧ (65535 : Int) + (accessBytes false : Int) - 1 ≤ 65535) ∧
      ¬(0 ≤ (65535 : Int) ∧ (65535 : Int) + (accessBytes true : Int) - 1 ≤ 65535) ∧
      ¬(0 ≤ (-1 : Int) ∧ (-1 : Int) + (accessBytes false : Int) - 1 ≤ 65535) := by decide

theorem witness_OperandAccessRule :
    memWrite [] (effectiveAddress zeroRegs (.direct 0xFFFF)) false 7 = .ok [(65535, 7)] ∧
      memWrite [] (effectiveAddress zeroRegs (.direct 0xFFFF)) true 7 = .error (.bounds 65535) := ⟨rfl, rfl⟩

/-- One record for each way a pair is invalid: an immediate destination, a label source, two memory operands, a byte register
and a whole one in operations of the other width, the latter as source. -/
theorem witness_InvalidOperandsFault_pair :
    NextInRange storeTop lowTop ∧
      isDestination (.immediateData 1) = false ∧
      (∃ k, Operand.labelOffset 5 = .labelOffset k) ∧
      (isMemory (.memory (.direct 0)) = true ∧ isMemory (.memory (.direct 1)) = true) ∧
      operandFits true (.register .ax .low) = false ∧ operandFits false (full .ax) = false ∧
      operandFits false (.register .sp .low) = false := ⟨by decide, rfl, ⟨5, rfl⟩, ⟨rfl, rfl⟩, rfl, rfl, rfl⟩

theorem witness_InvalidOperandsFault_whole :
    NextInRange (pairRecord (.immediateData 1) (full .ax) true 3) lowTop ∧
      ∀ d src, (pairRecord (.immediateData 1) (full .ax) true 3).dst = some d →
        (pairRecord (.immediateData 1) (full .ax) true 3).src = some src →
        isDestination d = false ∨ (∃ k, src = .labelOffset k) ∨ (isMemory d = true ∧ isMemory src = true) ∨
          operandFits true d = false ∨ operandFits true src = false := ⟨by decide, fun d src h _ => Or.inl (by cases h; rfl)⟩

theorem witness_InvalidOperandsFault_absent :
    ∀ d src, (⟨some (full .ax), none, noFlags, 2⟩ : Fields).dst = some d →
      (⟨some (full .ax), none, noFlags, 2⟩ : Fields).src = some src →
        isDestination d = false ∨ (∃ k, src = .labelOffset k) ∨ (isMemory d = true ∧ isMemory src = true) ∨
          operandFits false d = false ∨ operandFits false src = false := fun _ _ _ h => by cases h

theorem witness_InvalidOperandsFault_offset :
    (∀ k, ¬HasOffset ⟨none, none, noFlags, 2⟩ k) ∧ (∀ k, ¬HasOffset movAxBx k) ∧
      ∀ k, ¬HasOffset ⟨some (.labelOffset 1), some (.labelOffset 1), noFlags, 2⟩ k := 
  ⟨fun k h => (by cases h.1), fun k h => (by cases h.1), fun k h => (by cases h.2)⟩

theorem witness_DecodedRecordsNeverOperandFault :
    decode [0x89, 0xD8] = some (.movRmReg (pairRecord (full .ax) (full .bx) true 2)) ∧ State.reset.status = .running ∧
      ∃ t, exec (.movRmReg (pairRecord (full .ax) (full .bx) true 2)) State.reset = .next t := ⟨by decide, rfl, _, rfl⟩

theorem witness_StepRunsDecodedInstruction :
    State.reset.status = .running ∧ fetchDecode State.reset = some (.hlt ⟨none, none, noFlags, 1⟩) ∧
      fetchDecode (ready State.reset 0xFFFD [0xB9, 0x0C, 0x00]) =
        some (.movImmReg ⟨some (full .cx), some (.immediateData 12), ⟨true, true, false⟩, 3⟩) := by decide

theorem witness_StepOfStoppedOrUndecodable :
    (halt State.reset).status ≠ .running ∧ (ready State.reset 0xFFFF [0xB9]).status = .running ∧
      fetchDecode (ready State.reset 0xFFFF [0xB9]) = none := by decide

/-- Each way a step leaves the machine stopped: `hlt`, no instruction, an unwired jump, a bounds fault. -/
theorem witness_StopsCommitOnlyStatus :
    (∃ t, step State.reset = .next t ∧ t.status = .halted) ∧
      (∃ t, step (ready State.reset 0 [0x90]) = .next t ∧ t.status = .stoppedUndecodable) ∧
      (∃ t, step (ready State.reset 0 [0x70, 0x00]) = .next t ∧ t.status = .faultUnimplemented .jo) ∧
      ∃ t, step (ready State.reset 0 [0xA1, 0xFF, 0xFF]) = .next t ∧ t.status = .faultBounds 65535 := ⟨⟨_, rfl, rfl⟩, ⟨_, rfl, rfl⟩, ⟨_, rfl, rfl⟩, ⟨_, rfl, rfl⟩⟩

/-- Each stop value a step can leave: `hlt`, no instruction, an unwired jump, and the three causes of a bounds fault at the first
integer outside the address space: IP past the top, a word at 0xFFFF, a loop to 65536. -/
theorem witness_StatusIsSetByItsCause :
    (∃ t, step State.reset = .next t ∧ t.status = .halted) ∧
      (∃ t, step (ready State.reset 0 [0x90]) = .next t ∧ t.status = .stoppedUndecodable) ∧
      (∃ t, step (ready State.reset 0 [0x70, 0x00]) = .next t ∧ t.status = .faultUnimplemented .jo) ∧
      (∃ t, step (ready State.reset 0xFFFE [0xB0, 0x01]) = .next t ∧ t.status = .faultBounds 65536) ∧
      (∃ t, step (ready State.reset 0 [0xA1, 0xFF, 0xFF]) = .next t ∧ t.status = .faultBounds 65535) ∧
      ∃ t, step (ready State.reset 0xFFF0 [0xE2, 0x0E]) = .next t ∧ t.status = .faultBounds 65536 :=
  ⟨⟨_, rfl, rfl⟩, ⟨_, rfl, rfl⟩, ⟨_, rfl, rfl⟩, ⟨_, rfl, rfl⟩, ⟨_, rfl, rfl⟩, ⟨_, rfl, rfl⟩⟩

theorem witness_StepKeepsInvariant :
    Inv (load State.reset [0x04, 0x80]) ∧ ∃ t, step (load State.reset [0x04, 0x80]) = .next t ∧ t.sf = true := ⟨by decide, _, rfl, rfl⟩

theorem witness_LoadEstablishesInvariant :
    ([] : List Byte).length ≤ 65535 ∧ (List.replicate 65535 (0x90 : Byte)).length ≤ 65535 := ⟨by decide, by rw [List.length_replicate]⟩

theorem witness_WiredIsNeverWritten :
    ∃ t, step (ready (branching 0 1 true) 0 [0xE2, 0xFE]) = .next t ∧ t.wired = allWired := ⟨_, rfl, rfl⟩

theorem witness_OnlyTheOperationsWiringMatters :
    isWired smallestWired .loop = isWired State.reset.wired .loop ∧ smallestWired ≠ State.reset.wired ∧
      ∃ t, exec (.loop (jumpRecord 0)) State.reset = .next t := ⟨rfl, by decide, _, rfl⟩

theorem witness_OnlyArithmeticWritesFlags :
    aluOpOf .movRmReg = none ∧ aluOpOf .loop = none ∧ ∃ t, exec (.movRmReg movAxBx) State.reset = .next t := ⟨rfl, rfl, _, rfl⟩

/-- Both ways IP can move: past the instruction, and to a target, here the instruction itself at address 0. -/
theorem witness_IpAdvancesOrBranches :
    (load State.reset [0xB9, 0x0C, 0x00]).status = .running ∧
      (∃ t, step (load State.reset [0xB9, 0x0C, 0x00]) = .next t ∧ t.status = .running ∧ t.ip = 3) ∧
      ∃ t, step (load State.reset [0xE2, 0xFE]) = .next t ∧ t.status = .running ∧ t.ip = 0 := ⟨rfl, ⟨_, rfl, rfl, rfl⟩, ⟨_, rfl, rfl, rfl⟩⟩

theorem witness_AdvancePastTheTopFaults :
    ¬NextInRange movAxBx (pokeIp State.reset 65534) ∧ NextInRange movAxBx (pokeIp State.reset 65533) ∧
      (Instr.movRmReg movAxBx).fields = movAxBx ∧ (Instr.movRmReg movAxBx).operation ≠ .hlt := by decide

/-- Register operands, and the last word of memory as the destination of an instruction that ends at 0xFFFE. -/
theorem witness_MovStoresSource :
    HasPair movAxBx (full .ax) (full .bx) ∧ NextInRange movAxBx State.reset ∧
      HasPair storeTop (.memory (.direct 0xFFFE)) (full .ax) ∧ NextInRange storeTop lowTop ∧
      accessible lowTop true (.memory (.direct 0xFFFE)) = true ∧ accessible lowTop true (full .ax) = true := by decide

theorem witness_AddStoresSumAndFlags :
    HasPair movAxBx (full .ax) (full .bx) ∧ NextInRange movAxBx State.reset ∧
      HasPair storeTop (.memory (.direct 0xFFFE)) (full .ax) ∧ NextInRange storeTop lowTop ∧
      accessible lowTop true (.memory (.direct 0xFFFE)) = true ∧ accessible lowTop true (full .ax) = true := by decide

theorem witness_SubStoresDifferenceAndFlags :
    HasPair movAxBx (full .ax) (full .bx) ∧ NextInRange movAxBx State.reset ∧
      HasPair storeTop (.memory (.direct 0xFFFE)) (full .ax) ∧ NextInRange storeTop lowTop ∧
      accessible lowTop true (.memory (.direct 0xFFFE)) = true ∧ accessible lowTop true (full .ax) = true := by decide

theorem witness_CmpWritesFlagsOnly :
    HasPair movAxBx (full .ax) (full .bx) ∧ NextInRange movAxBx State.reset ∧
      HasPair storeTop (.memory (.direct 0xFFFE)) (full .ax) ∧ NextInRange storeTop lowTop ∧
      accessible lowTop true (.memory (.direct 0xFFFE)) = true ∧ accessible lowTop true (full .ax) = true := by decide

theorem witness_MovFrame :
    (∃ t, exec (.movRmReg storeTop) lowTop = .next t ∧ t.status = .running ∧ t.ip = 65535) ∧
      ∃ t, exec (.movRmReg storeOut) lowTop = .next t ∧ Faulted t := ⟨⟨_, rfl, rfl, rfl⟩, ⟨_, rfl, by decide⟩⟩

theorem witness_AddSubFrame :
    (∃ t, exec (.addRmReg storeTop) lowTop = .next t ∧ t.status = .running ∧ t.ip = 65535) ∧
      ∃ t, exec (.addRmReg storeOut) lowTop = .next t ∧ Faulted t := ⟨⟨_, rfl, rfl, rfl⟩, ⟨_, rfl, by decide⟩⟩

theorem witness_CmpFrame :
    (∃ t, exec (.cmpRmReg storeTop) lowTop = .next t ∧ t.status = .running ∧ t.ip = 65535) ∧
      ∃ t, exec (.cmpRmReg storeOut) lowTop = .next t ∧ Faulted t := ⟨⟨_, rfl, rfl, rfl⟩, ⟨_, rfl, by decide⟩⟩

theorem witness_AddSubFrame_sub :
    ∃ t, exec (.subRmReg storeTop) lowTop = .next t ∧ t.status = .running := ⟨_, rfl, rfl⟩

/-- The address a frame speaks of: the last word of memory is touched, the byte below it is not. -/
theorem witness_Touches :
    Touches lowTop true (.memory (.direct 0xFFFE)) 65534 ∧ Touches lowTop true (.memory (.direct 0xFFFE)) 65535 ∧
      ¬Touches lowTop true (.memory (.direct 0xFFFE)) 65533 := by unfold Touches; decide

theorem witness_MovOutOfBoundsFaults :
    HasPair storeOut (.memory (.direct 0xFFFF)) (full .ax) ∧ NextInRange storeOut lowTop ∧
      inBounds (effectiveAddress lowTop.regs (.direct 0xFFFF)) true = false ∧
      HasPair loadOut (.register .ax .low) (.memory (.calculated .bx 0xFFFF)) ∧ NextInRange loadOut lowTop ∧
      inBounds (effectiveAddress lowTop.regs (.calculated .bx 0xFFFF)) false = false := by decide

theorem witness_ArithOutOfBoundsFaults :
    HasPair storeOut (.memory (.direct 0xFFFF)) (full .ax) ∧ NextInRange storeOut lowTop ∧
      inBounds (effectiveAddress lowTop.regs (.direct 0xFFFF)) true = false ∧
      HasPair loadOut (.register .ax .low) (.memory (.calculated .bx 0xFFFF)) ∧ NextInRange loadOut lowTop ∧
      inBounds (effectiveAddress lowTop.regs (.calculated .bx 0xFFFF)) false = false := by decide

/-- Targets 0 and 65535, the ends of the address space, in states where each predicate holds. -/
theorem witness_WiredJumpTaken :
    HasOffset (jumpRecord 0xFE) 0xFE ∧ NextInRange (jumpRecord 0xFE) (branching 0 0 true) ∧
      TargetInRange (jumpRecord 0xFE) 0xFE (branching 0 0 true) ∧ branchTarget (jumpRecord 0xFE) 0xFE (branching 0 0 true) = 0 ∧
      TargetInRange (jumpRecord 13) 13 (branching 0xFFF0 0 false) ∧
      branchTarget (jumpRecord 13) 13 (branching 0xFFF0 0 false) = 65535 ∧
      (branching 0 0 true).wired = allWired ∧ (branching 0 0 true).zf = true ∧ (branching 0 0 false).sf = true ∧
      (branching 0 0 false).zf = false ∧ (branching 0 0 true).sf = false ∧ (branching 0 0 true).regs.cx = 0 := by decide

theorem witness_WiredJumpNotTaken :
    HasOffset (jumpRecord 0x80) 0x80 ∧ NextInRange (jumpRecord 0x80) (branching 65533 1 true) ∧
      (branching 65533 1 true).wired = allWired ∧ (branching 65533 1 true).zf = true ∧ (branching 65533 1 false).sf = true ∧
      (branching 65533 1 false).zf = false ∧ (branching 65533 1 true).sf = false ∧ (branching 65533 1 true).regs.cx ≠ 0 := by decide

/-- Targets -1 and 65536, just outside the address space; the counter is 0 for `jcxz`, and not 1 for the loops. -/
theorem witness_BranchOutOfBoundsFaults :
    HasOffset (jumpRecord 0xFD) 0xFD ∧ NextInRange (jumpRecord 0xFD) (branching 0 0 true) ∧
      ¬TargetInRange (jumpRecord 0xFD) 0xFD (branching 0 0 true) ∧
      branchTarget (jumpRecord 0xFD) 0xFD (branching 0 0 true) = -1 ∧
      NextInRange (jumpRecord 14) (branching 0xFFF0 0 false) ∧ ¬TargetInRange (jumpRecord 14) 14 (branching 0xFFF0 0 false) ∧
      branchTarget (jumpRecord 14) 14 (branching 0xFFF0 0 false) = 65536 ∧ (branching 0 0 true).wired = allWired ∧
      (branching 0 0 true).regs.cx = 0 ∧ (branching 0 2 true).regs.cx ≠ 1 ∧ (branching 0 2 true).zf = true ∧
      (branching 0 2 false).zf = false ∧ (branching 0 2 false).sf = true ∧ (branching 0 2 true).sf = false := by decide

theorem witness_UnwiredOperationFaults :
    (Instr.jcxz (jumpRecord 5)).operation.format = .rel8 ∧ isWired State.reset.wired .jcxz = false ∧
      HasOffset (Instr.jcxz (jumpRecord 5)).fields 5 ∧ NextInRange (Instr.jcxz (jumpRecord 5)).fields (pokeIp State.reset 65533) ∧
      (Instr.loopz (jumpRecord 5)).operation.format = .rel8 ∧ isWired smallestWired .loopz = false ∧
      (Instr.jg (jumpRecord 5)).operation.format = .rel8 ∧ isWired allWired .jg = false := by decide

theorem witness_NeverWiredJumpsFault :
    HasOffset (jumpRecord 0x7F) 0x7F ∧ NextInRange (jumpRecord 0x7F) (branching 65533 0 true) := by decide

theorem witness_JumpFrame :
    (∃ t, exec (.je (jumpRecord 0xFE)) (branching 0 0 true) = .next t ∧ t.status = .running) ∧
      ∃ t, exec (.jo (jumpRecord 0xFE)) (branching 0 0 true) = .next t ∧ Faulted t := ⟨⟨_, rfl, rfl⟩, ⟨_, rfl, by decide⟩⟩

/-- Targets 0 and 65535 with the counter at 0 and 2, the neighbours of the one value that does not branch. -/
theorem witness_LoopBranches :
    HasOffset (jumpRecord 0xFE) 0xFE ∧ NextInRange (jumpRecord 0xFE) (branching 0 0 true) ∧
      TargetInRange (jumpRecord 0xFE) 0xFE (branching 0 0 true) ∧ (branching 0 0 true).regs.cx ≠ 1 ∧
      NextInRange (jumpRecord 13) (branching 0xFFF0 2 false) ∧ TargetInRange (jumpRecord 13) 13 (branching 0xFFF0 2 false) ∧
      (branching 0xFFF0 2 false).regs.cx ≠ 1 ∧ (branching 0 0 true).wired = allWired ∧ (branching 0 0 true).zf = true ∧
      (branching 0xFFF0 2 false).zf = false := by decide

theorem witness_LoopFallsThrough :
    HasOffset (jumpRecord 0x80) 0x80 ∧ NextInRange (jumpRecord 0x80) (branching 65533 1 true) ∧
      (branching 65533 1 true).regs.cx = 1 ∧ (branching 65533 1 true).wired = allWired ∧
      (branching 65533 5 false).zf = false ∧ (branching 65533 5 true).zf = true := by decide

theorem witness_LoopFrame :
    (∃ t, exec (.loop (jumpRecord 0xFE)) (branching 0 0 true) = .next t ∧ t.regs.cx = 0xFFFF) ∧
      ∃ t, exec (.loopnz (jumpRecord 0xFE)) (branching 0 1 true) = .next t ∧ t.ip = 2 := ⟨⟨_, rfl, rfl⟩, ⟨_, rfl, rfl⟩⟩

theorem witness_StoppedMachineNeverMoves :
    (halt State.reset).status ≠ .running ∧ (raise State.reset .operand).status ≠ .running := by decide

theorem witness_LoadPlacesProgramAndSentinel :
    (List.replicate 65535 (0x90 : Byte)).length ≤ 65535 ∧ ([0x90] : List Byte).length ≤ 65535 ∧
      0 < ([0x90] : List Byte).length ∧ ([0x90] : List Byte).length < 65535 := ⟨by rw [List.length_replicate], by decide, by decide, by decide⟩

theorem witness_TooLongProgramIsRefused :
    65535 < (List.replicate 65536 (0x90 : Byte)).length := by rw [List.length_replicate]; decide

theorem witness_SentinelHalts :
    State.reset.status = .running ∧ readByte State.reset.mem State.reset.ip.toNat = 0xF4 ∧
      readByte (ready State.reset 0xFFFF [0xF4]).mem (ready State.reset 0xFFFF [0xF4]).ip.toNat = 0xF4 := by decide

theorem witness_StoreIsFetchedNext :
    5 < 6 ∧ (pokeIp State.reset 65530).ip.toNat + 5 ≤ 65535 ∧ 0 < 6 ∧ (pokeIp State.reset 65535).ip.toNat + 0 ≤ 65535 := by decide

theorem witness_DisplacementTextRule :
    (0 : Word).toInt = 0 ∧ 0 < 32767 ∧ 32767 < 32768 ∧ 0 < 32768 ∧ 32768 ≤ 32768 ∧ (0x8000 : Word).toInt = -32768 := by decide

theorem witness_TraceOnlyOfExecutedSteps :
    (∃ i t, State.reset.status = .running ∧ fetchDecode (load State.reset [0xB9, 0x0C, 0x00]) = some i ∧
        step (load State.reset [0xB9, 0x0C, 0x00]) = .next t ∧ t.status = .running) ∧ stepTrace State.reset = none := ⟨⟨_, _, rfl, rfl, rfl, rfl⟩, rfl⟩

theorem witness_OnlyEndedRunsAreReported :
    (halt State.reset).status = .halted ∧ (stopUndecodable State.reset).status = .stoppedUndecodable ∧
      State.reset.status = .running ∧ Faulted (raise State.reset (.bounds 65536)) ∧
      (load State.reset (List.replicate 65536 0)).status = .loadRefused := 
  ⟨rfl, rfl, rfl, by decide, by unfold load; rw [List.length_replicate]; rfl⟩

theorem witness_ResetState :
    (1 : Nat) ≠ 0 ∧ (65535 : Nat) ≠ 0 := by decide

end Sys2Proof.Tests
end

section
/-! SUPPORT. The decoder looks at the first six bytes of its window only (30_encoding.md R75): each part of it gives the
same on a window cut after the bytes it asks for. -/

namespace Sys2Proof.Proofs.DecodeWindow

open Sys2Proof Sys2Proof.Machine

theorem byteAt_take {k n : Nat} (window : List Byte) (h : k < n) : byteAt (window.take n) k = byteAt window k :=
  List.getElem?_take_of_lt h

/-- The mode byte and its displacement are three bytes at most (R58). -/
theorem decodeModRm_take {k n : Nat} (window : List Byte) (wide : Bool) (h : k + 2 < n) :
    decodeModRm (window.take n) k wide = decodeModRm window k wide := by
  simp only [decodeModRm, byteAt_take window (by omega : k < n), byteAt_take window (by omega : k + 1 < n),
    byteAt_take window h]

/-- An immediate is two bytes at most (R59). -/
theorem decodeImm_take {k n : Nat} (window : List Byte) (wide sext : Bool) (h : k + 1 < n) :
    decodeImm (window.take n) k wide sext = decodeImm window k wide sext := by
  simp only [decodeImm, byteAt_take window (by omega : k < n), byteAt_take window h]

/-- Each mode's displacement is two bytes at most (R58). -/
theorem decodeModRm_displacement_le {window : List Byte} {k nd : Nat} {wide : Bool} {reg : BitVec 3} {m : Operand}
    (h : decodeModRm window k wide = some (reg, m, nd)) : nd ≤ 2 := by
  simp only [decodeModRm, Option.bind_eq_bind, Option.bind_eq_some_iff] at h
  obtain ⟨mode, -, h⟩ := h
  -- one case per mode, in the decoder's order: register, direct, no displacement, one byte, two bytes
  split_ifs at h
  all_goals
    simp [Option.bind_eq_some_iff] at h
    omega

/-- The immediate after a mode byte starts at byte 4 at the latest, so it ends within six bytes. -/
theorem decodeImm_take_six {window : List Byte} {nd : Nat} {wide : Bool} {reg : BitVec 3} {m : Operand}
    (h : decodeModRm window 1 wide = some (reg, m, nd)) (sext : Bool) :
    decodeImm (window.take 6) (2 + nd) wide sext = decodeImm window (2 + nd) wide sext :=
  decodeImm_take window wide sext (by have := decodeModRm_displacement_le h; omega)

/-! ### The formats -/

theorem decodeRmReg_take (tag : OperationTag) (b0 : Byte) (window : List Byte) :
    decodeRmReg tag b0 (window.take 6) = decodeRmReg tag b0 window := by
  simp only [decodeRmReg, decodeModRm_take window _ (by decide : 1 + 2 < 6)]

theorem decodeImmRm_take (b0 : Byte) (window : List Byte) :
    decodeImmRm b0 (window.take 6) = decodeImmRm b0 window := by
  simp only [decodeImmRm, decodeModRm_take window _ (by decide : 1 + 2 < 6)]
  cases hm : decodeModRm window 1 (b0.getLsbD 0) with
  | none => rfl
  | some parts => simp only [Option.bind_eq_bind, Option.bind_some, decodeImm_take_six hm]

theorem decodeMovImmRm_take (b0 : Byte) (window : List Byte) :
    decodeMovImmRm b0 (window.take 6) = decodeMovImmRm b0 window := by
  simp only [decodeMovImmRm, decodeModRm_take window _ (by decide : 1 + 2 < 6)]
  cases hm : decodeModRm window 1 (b0.getLsbD 0) with
  | none => rfl
  | some parts => simp only [Option.bind_eq_bind, Option.bind_some, decodeImm_take_six hm]

theorem decodeImmReg_take (b0 : Byte) (window : List Byte) :
    decodeImmReg b0 (window.take 6) = decodeImmReg b0 window := by
  simp only [decodeImmReg, decodeImm_take window _ _ (by decide : 1 + 1 < 6)]

theorem decodeImmAcc_take (tag : OperationTag) (b0 : Byte) (window : List Byte) :
    decodeImmAcc tag b0 (window.take 6) = decodeImmAcc tag b0 window := by
  simp only [decodeImmAcc, decodeImm_take window _ _ (by decide : 1 + 1 < 6)]

theorem decodeMemAcc_take (b0 : Byte) (window : List Byte) :
    decodeMemAcc b0 (window.take 6) = decodeMemAcc b0 window := by
  simp only [decodeMemAcc, byteAt_take window (by decide : 1 < 6), byteAt_take window (by decide : 2 < 6)]

theorem decodeRel8_take (tag : OperationTag) (window : List Byte) :
    decodeRel8 tag (window.take 6) = decodeRel8 tag window := by
  simp only [decodeRel8, byteAt_take window (by decide : 1 < 6)]

/-! ### The whole decoder -/

/-- Byte 0 selects the format, and each format stays within six bytes. -/
theorem decodeFrom_take (b0 : Byte) (window : List Byte) : decodeFrom b0 (window.take 6) = decodeFrom b0 window := by
  simp only [decodeFrom, decodeRmReg_take, decodeImmRm_take, decodeMovImmRm_take, decodeImmReg_take, decodeImmAcc_take,
    decodeMemAcc_take, decodeRel8_take]

theorem decode_take (window : List Byte) : decode (window.take 6) = decode window := by
  cases window with
  | nil => rfl
  | cons b0 rest => exact decodeFrom_take b0 (b0 :: rest)

/-- Settles O7: the decoder gives the same on a window as on its first six bytes. -/
theorem decodingIsPure : Obligations.DecodingIsPure := by
  intro bytes other o p h
  calc decodeAt bytes o = decode ((bytes.drop o).take 6) := (decode_take _).symm
    _ = decode ((other.drop p).take 6) := by rw [h]
    _ = decodeAt other p := decode_take _

end Sys2Proof.Proofs.DecodeWindow
end

section
/-! SUPPORT. A register access as arithmetic on the cell (40_operands.md R96, R97): the two bytes of a word are its quotient
and remainder by 256, and a byte write puts one of them back. -/

namespace Sys2Proof.Proofs.RegisterAccess

open Sys2Proof Sys2Proof.Machine

/-! ### The bytes of a word as numbers -/

@[simp] theorem toNat_loByte (w : Word) : (loByte w).toNat = w.toNat % 256 := by
  simp [loByte]

@[simp] theorem toNat_hiByte (w : Word) : (hiByte w).toNat = w.toNat / 256 := by
  have : w.toNat / 256 < 256 := by omega
  simpa [hiByte, Nat.shiftRight_eq_div_pow] using this

@[simp] theorem toNat_zextByte (b : Byte) : (zextByte b).toNat = b.toNat :=
  BitVec.toNat_setWidth_of_le (by decide)

@[simp] theorem toNat_wordOf (hi lo : Byte) : (wordOf hi lo).toNat = hi.toNat * 256 + lo.toNat := by
  rw [wordOf, BitVec.toNat_append, ← Nat.shiftLeft_add_eq_or_of_lt lo.isLt, Nat.shiftLeft_eq]

/-! ### The three views of a cell -/

@[simp] theorem regRead_full (r : Regs) (c : RegCell) : regRead r c .full = readCell r c := rfl

@[simp] theorem regRead_low (r : Regs) (c : RegCell) : regRead r c .low = zextByte (loByte (readCell r c)) := rfl

@[simp] theorem regRead_high (r : Regs) (c : RegCell) : regRead r c .high = zextByte (hiByte (readCell r c)) := rfl

/-! ### The two byte writes of one cell, in either order -/

theorem readCell_writeLow_writeHigh (r : Regs) (c : RegCell) (lo hi : Word) :
    readCell (regWrite (regWrite r c .low lo) c .high hi) c = wordOf (loByte hi) (loByte lo) := by
  simp only [readCell_regWrite_same, loByte_wordOf]

theorem readCell_writeHigh_writeLow (r : Regs) (c : RegCell) (lo hi : Word) :
    readCell (regWrite (regWrite r c .high hi) c .low lo) c = wordOf (loByte hi) (loByte lo) := by
  simp only [readCell_regWrite_same, hiByte_wordOf]

/-- Settles O9: each view is the cell, its remainder or its quotient by 256. -/
theorem registerReadRule : Obligations.RegisterReadRule := by
  intro r c
  refine ⟨regRead_full r c, ?_, ?_⟩
  · rw [regRead_low, toNat_zextByte, toNat_loByte]
  · rw [regRead_high, toNat_zextByte, toNat_hiByte]

/-- Settles O10: what the written cell holds after each write, the other cells, and the two bytes 0xAA and 0xBB written one
after the other, which make the word 0xBBAA whichever comes first. -/
theorem registerWriteRule : Obligations.RegisterWriteRule := by
  intro r c v
  have lowThenHigh := readCell_writeLow_writeHigh r c 0xAA 0xBB
  have highThenLow := readCell_writeHigh_writeLow r c 0xAA 0xBB
  refine ⟨?full, ?low, ?high, fun a d => readCell_regWrite_other r a v,
    ?fullOfLowHigh, ?fullOfHighLow, ?lowOfLowHigh, ?highOfLowHigh⟩
  case full => rw [readCell_regWrite_same]
  case low => rw [readCell_regWrite_same, toNat_wordOf, toNat_hiByte, toNat_loByte]
  case high => rw [readCell_regWrite_same, toNat_wordOf, toNat_loByte, toNat_loByte]
  case fullOfLowHigh => rw [regRead_full, lowThenHigh]; decide
  case fullOfHighLow => rw [regRead_full, highThenLow]; decide
  case lowOfLowHigh => rw [regRead_low, lowThenHigh]; decide
  case highOfLowHigh => rw [regRead_high, lowThenHigh]; decide

end Sys2Proof.Proofs.RegisterAccess
end

section
/-! SUPPORT. A jump or loop that is not wired (44_jumps.md R160, R162): the three shared meanings raise UnimplementedFault once
IP's advance and the operand list are accepted. -/

namespace Sys2Proof.Proofs.Unwired

open Sys2Proof Sys2Proof.Machine

theorem requireWired_of_unwired {op : OperationTag} {s : State} (h : isWired s.wired op = false) :
    requireWired op s = .error (.unimplemented op) := by
  simp [requireWired, h]

section
variable {op : OperationTag} {f : Fields} {k : Byte} {s : State} (hoffset : HasOffset f k) (hnext : NextInRange f s)
include hoffset hnext

/-- The start that every jump and loop shares: only what follows the advance and the operand list is left. -/
theorem conclude_advance_branchOffset (rest : State → Byte → Except Abort State) :
    conclude s (do
      let s1 ← advance f.size s
      let k ← branchOffset f
      rest s1 k) = conclude s (rest (pastInstr f s) k) := by
  rw [advance_of_next f s hnext, (branchOffset_ok f k).mpr hoffset]
  rfl

theorem execNeverWired_raises : execNeverWired op f s = .next (raise s (.unimplemented op)) :=
  conclude_advance_branchOffset hoffset hnext fun _ _ => .error (.unimplemented op)

theorem execJump_of_unwired {taken : State → Bool} (h : isWired s.wired op = false) :
    execJump op taken f s = .next (raise s (.unimplemented op)) := by
  have hraise : requireWired op (pastInstr f s) = .error (.unimplemented op) := requireWired_of_unwired h
  rw [execJump, conclude_advance_branchOffset hoffset hnext, hraise]
  rfl

/-- The wiring is tested before the counter is decremented (45_loops.md R190). -/
theorem execLoopWith_of_unwired {extra : State → Bool} (h : isWired s.wired op = false) :
    execLoopWith op extra f s = .next (raise s (.unimplemented op)) := by
  have hraise : requireWired op (pastInstr f s) = .error (.unimplemented op) := requireWired_of_unwired h
  rw [execLoopWith, conclude_advance_branchOffset hoffset hnext, hraise]
  rfl

end

/-- Settles O43: by the shared meaning of the operation. `loop` is always wired, and no other format is a jump or loop. -/
theorem unwiredOperationFaults : Obligations.UnwiredOperationFaults := by
  intro i k s hformat hunwired hoffset hnext
  cases i with
  | jo | jno | jb | jnb | jbe | ja | jp | jnp | jl | jnl | jle | jg => exact execNeverWired_raises hoffset hnext
  | je | jne | js | jns | jcxz => exact execJump_of_unwired hoffset hnext hunwired
  | loopz => exact execLoopWith_of_unwired (extra := fun t => t.zf) hoffset hnext hunwired
  | loopnz => exact execLoopWith_of_unwired (extra := fun t => !t.zf) hoffset hnext hunwired
  | loop => cases hunwired
  | movRmReg | movImmRm | movImmReg | movMemToAcc | movAccToMem | addRmReg | addImmRm | addImmAcc | subRmReg | subImmRm
  | subImmAcc | cmpRmReg | cmpImmRm | cmpImmAcc | hlt => cases hformat

end Sys2Proof.Proofs.Unwired
end

section
/-! SUPPORT. The records that encodings give, written out format by format (30_encoding.md R52): the shapes that
`Instr.wf` checks for. -/

namespace Sys2Proof.Proofs.Encoding

open Sys2Proof Sys2Proof.Machine

/-! ### The shape of a well-formed record -/

/-- R52's rows as the records themselves, where `wfFields` gives them as a check. -/
inductive Shape : OperationTag → Fields → Prop where
  | rmReg {tag : OperationTag} {w dir : Bool} {r m : Operand} {nd : Nat} (htag : tag.format = .rmReg)
      (hr : wfRegister w r = true) (hm : wfRm w nd m = true) :
      Shape tag ⟨some (if dir then r else m), some (if dir then m else r), ⟨w, dir, false⟩, 2 + nd⟩
  | immRm {tag : OperationTag} {w sext : Bool} {m : Operand} {v : Word} {nd : Nat} (htag : tag.format = .immRm)
      (hm : wfRm w nd m = true) (hv : wfImmediate w sext (.immediateData v) = true) :
      Shape tag ⟨some m, some (.immediateData v), ⟨w, false, sext⟩, 2 + nd + immediateBytes w sext⟩
  | movImmRm {w : Bool} {m : Operand} {v : Word} {nd : Nat} (hm : wfRm w nd m = true)
      (hv : wfImmediate w false (.immediateData v) = true) :
      Shape .movImmRm ⟨some m, some (.immediateData v), ⟨w, false, false⟩, 2 + nd + immediateBytes w false⟩
  | immReg {w : Bool} {r : Operand} {v : Word} (hr : wfRegister w r = true)
      (hv : wfImmediate w false (.immediateData v) = true) :
      Shape .movImmReg ⟨some r, some (.immediateData v), ⟨w, true, false⟩, 1 + immediateBytes w false⟩
  | immAcc {tag : OperationTag} {w : Bool} {v : Word} (htag : tag.format = .immAcc)
      (hv : wfImmediate w false (.immediateData v) = true) :
      Shape tag ⟨some (accumulator w), some (.immediateData v), ⟨w, true, false⟩, 1 + immediateBytes w false⟩
  | memToAcc {w : Bool} {a : Word} :
      Shape .movMemToAcc ⟨some (accumulator w), some (.memory (.direct a)), ⟨w, true, false⟩, 3⟩
  | accToMem {w : Bool} {a : Word} :
      Shape .movAccToMem ⟨some (.memory (.direct a)), some (accumulator w), ⟨w, false, false⟩, 3⟩
  | rel8 {tag : OperationTag} {k : Byte} (htag : tag.format = .rel8) :
      Shape tag ⟨some (.labelOffset k), none, ⟨false, false, false⟩, 2⟩
  | hlt : Shape .hlt ⟨none, none, ⟨false, false, false⟩, 1⟩

theorem wfImmediate_cases {w sext : Bool} {o : Operand} (h : wfImmediate w sext o = true) :
    ∃ v, o = .immediateData v := by
  cases o with
  | immediateData v => exact ⟨v, rfl⟩
  | register | memory | labelOffset => cases h

/-- The check on a record's fields finds exactly the shapes. -/
theorem shape_of_wf {i : Instr} (h : WellFormed i) : Shape i.operation i.fields := by
  obtain ⟨hf, hd⟩ := (Bool.and_eq_true _ _).mp h
  revert hf hd
  generalize i.operation = tag
  obtain ⟨dst, src, ⟨w, dir, sext⟩, n⟩ := i.fields
  intro hf hd
  cases htag : tag.format <;> rw [htag] at hf <;> rcases dst with _ | d <;> rcases src with _ | s <;>
    try exact absurd hf Bool.false_ne_true
  case rmReg =>
    simp only [wfFields, Bool.and_eq_true, Bool.not_eq_true', beq_iff_eq] at hf
    obtain ⟨⟨rfl, hn⟩, hf⟩ := hf
    rw [hn]
    cases dir with
    | false => exact .rmReg (dir := false) htag ((Bool.and_eq_true _ _).mp hf).2 ((Bool.and_eq_true _ _).mp hf).1
    | true => exact .rmReg (dir := true) htag ((Bool.and_eq_true _ _).mp hf).1 ((Bool.and_eq_true _ _).mp hf).2
  case immRm =>
    simp only [wfFields, Bool.and_eq_true, Bool.not_eq_true', beq_iff_eq] at hf
    obtain ⟨⟨⟨rfl, hn⟩, hm⟩, hv⟩ := hf
    obtain ⟨v, rfl⟩ := wfImmediate_cases hv
    rw [hn]
    exact .immRm htag hm hv
  case movImmRm =>
    simp only [wfFields, Bool.and_eq_true, Bool.not_eq_true', beq_iff_eq] at hf
    obtain ⟨⟨⟨⟨rfl, rfl⟩, hn⟩, hm⟩, hv⟩ := hf
    obtain ⟨v, rfl⟩ := wfImmediate_cases hv
    rw [hn]
    cases tag <;> cases htag
    exact .movImmRm hm hv
  case immReg =>
    simp only [wfFields, Bool.and_eq_true, Bool.not_eq_true', beq_iff_eq] at hf
    obtain ⟨⟨⟨⟨rfl, rfl⟩, rfl⟩, hr⟩, hv⟩ := hf
    obtain ⟨v, rfl⟩ := wfImmediate_cases hv
    cases tag <;> cases htag
    exact .immReg hr hv
  case immAcc =>
    simp only [wfFields, Bool.and_eq_true, Bool.not_eq_true', beq_iff_eq] at hf
    obtain ⟨⟨⟨⟨rfl, rfl⟩, rfl⟩, rfl⟩, hv⟩ := hf
    obtain ⟨v, rfl⟩ := wfImmediate_cases hv
    exact .immAcc htag hv
  case memAcc =>
    simp only [wfFields, Bool.and_eq_true, Bool.not_eq_true', beq_iff_eq] at hf
    obtain ⟨⟨rfl, rfl⟩, hf⟩ := hf
    split at hf
    · cases tag <;> cases htag <;> cases hd
      rw [beq_iff_eq] at hf
      exact hf ▸ .memToAcc
    · cases tag <;> cases htag <;> cases hd
      rw [beq_iff_eq] at hf
      exact hf ▸ .accToMem
    · cases hf
  case rel8 =>
    cases d with
    | labelOffset k =>
      simp only [wfFields, Bool.and_eq_true, Bool.not_eq_true', beq_iff_eq] at hf
      obtain ⟨⟨⟨rfl, rfl⟩, rfl⟩, rfl⟩ := hf
      exact .rel8 htag
    | register | memory | immediateData => cases hf
  case none =>
    simp only [wfFields, Bool.and_eq_true, Bool.not_eq_true', beq_iff_eq] at hf
    obtain ⟨⟨⟨rfl, rfl⟩, rfl⟩, rfl⟩ := hf
    cases tag <;> cases htag
    exact .hlt
  all_goals rcases d with _ | _ | _ | _ <;> cases hf

theorem wf_of_shape {tag : OperationTag} {f : Fields} (h : Shape tag f) : WellFormed (.ofTag tag f) := by
  rw [WellFormed, Instr.wf, ofTag_operation, ofTag_fields, Bool.and_eq_true]
  cases h with
  | @rmReg _ w dir r m nd htag hr hm =>
    rw [htag]
    constructor
    · cases dir <;> simp [wfFields, displacementBytes, hr, hm]
    · cases tag <;> cases htag <;> rfl
  | @immRm _ w sext m v nd htag hm hv =>
    rw [htag]
    constructor
    · have hd : 2 + nd + immediateBytes w sext - 2 - immediateBytes w sext = nd := by omega
      simp [wfFields, displacementBytes, hd, hm, hv]
    · cases tag <;> cases htag <;> rfl
  | @movImmRm w m v nd hm hv =>
    have hd : 2 + nd + immediateBytes w false - 2 - immediateBytes w false = nd := by omega
    exact ⟨by simp [wfFields, OperationTag.format, displacementBytes, hd, hm, hv], rfl⟩
  | immReg hr hv => exact ⟨by simp [wfFields, OperationTag.format, hr, hv], rfl⟩
  | immAcc htag hv =>
    rw [htag]
    exact ⟨by simp [wfFields, hv], by cases tag <;> cases htag <;> rfl⟩
  | memToAcc => exact ⟨by simp [wfFields, OperationTag.format], rfl⟩
  | accToMem => exact ⟨by simp [wfFields, OperationTag.format, accumulator], rfl⟩
  | rel8 htag =>
    rw [htag]
    exact ⟨rfl, by cases tag <;> cases htag <;> rfl⟩
  | hlt => exact ⟨rfl, rfl⟩

end Sys2Proof.Proofs.Encoding
end

section
/-! SUPPORT. The encoder's bytes for each shape, and that the decoder gives the record back from them (30_encoding.md
sections 2, 3 and 5). -/

namespace Sys2Proof.Proofs.Encoding

open Sys2Proof Sys2Proof.Machine

/-! ### The bytes of each shape -/

theorem encodeFields_rmReg {tag : OperationTag} (htag : tag.format = .rmReg) (w dir : Bool) (r m : Operand) (nd : Nat) :
    encodeFields tag ⟨some (if dir then r else m), some (if dir then m else r), ⟨w, dir, false⟩, 2 + nd⟩ =
      (opcodeBase tag ||| bitAt dir 1 ||| bitAt w 0) :: encodeModRm (encodeReg r) nd m := by
  cases dir <;> simp [encodeFields, htag, displacementBytes]

theorem encodeFields_immRm {tag : OperationTag} (htag : tag.format = .immRm) (w sext : Bool) (m s : Operand) (nd : Nat) :
    encodeFields tag ⟨some m, some s, ⟨w, false, sext⟩, 2 + nd + immediateBytes w sext⟩ =
      (opcodeBase tag ||| bitAt sext 1 ||| bitAt w 0) :: (encodeModRm (subDispatch tag) nd m ++ encodeImm w sext s) := by
  have hd : 2 + nd + immediateBytes w sext - 2 - immediateBytes w sext = nd := by omega
  simp only [encodeFields, htag, displacementBytes, hd]

theorem encodeFields_movImmRm (w : Bool) (m s : Operand) (nd : Nat) :
    encodeFields .movImmRm ⟨some m, some s, ⟨w, false, false⟩, 2 + nd + immediateBytes w false⟩ =
      (opcodeBase .movImmRm ||| bitAt w 0) :: (encodeModRm 0#3 nd m ++ encodeImm w false s) := by
  have hd : 2 + nd + immediateBytes w false - 2 - immediateBytes w false = nd := by omega
  simp only [encodeFields, OperationTag.format, displacementBytes, hd]
  rfl

theorem encodeFields_immReg (w : Bool) (r s : Operand) (n : Nat) :
    encodeFields .movImmReg ⟨some r, some s, ⟨w, true, false⟩, n⟩ =
      (opcodeBase .movImmReg ||| bitAt w 3 ||| (encodeReg r).setWidth 8) :: encodeImm w false s := rfl

theorem encodeFields_immAcc {tag : OperationTag} (htag : tag.format = .immAcc) (w : Bool) (d s : Operand) (n : Nat) :
    encodeFields tag ⟨some d, some s, ⟨w, true, false⟩, n⟩ = (opcodeBase tag ||| bitAt w 0) :: encodeImm w false s := by
  simp only [encodeFields, htag]

theorem encodeFields_memToAcc (w : Bool) (a : Word) :
    encodeFields .movMemToAcc ⟨some (accumulator w), some (.memory (.direct a)), ⟨w, true, false⟩, 3⟩ =
      [opcodeBase .movMemToAcc ||| bitAt w 0, loByte a, hiByte a] := rfl

theorem encodeFields_accToMem (w : Bool) (a : Word) :
    encodeFields .movAccToMem ⟨some (.memory (.direct a)), some (accumulator w), ⟨w, false, false⟩, 3⟩ =
      [opcodeBase .movAccToMem ||| bitAt w 0, loByte a, hiByte a] := rfl

theorem encodeFields_rel8 {tag : OperationTag} (htag : tag.format = .rel8) (k : Byte) :
    encodeFields tag ⟨some (.labelOffset k), none, ⟨false, false, false⟩, 2⟩ = [opcodeBase tag, k] := by
  simp only [encodeFields, htag]

/-! ### The flag bits of byte 0 -/

theorem flagBits_of_two {tag : OperationTag} (h : tag.format = .rmReg ∨ tag.format = .immRm) (x w : Bool) :
    (opcodeBase tag ||| bitAt x 1 ||| bitAt w 0).getLsbD 0 = w ∧
      (opcodeBase tag ||| bitAt x 1 ||| bitAt w 0).getLsbD 1 = x := by
  rcases h with h | h <;> cases tag <;> cases h <;> revert x w <;> decide

theorem wideBit_of_one {tag : OperationTag} (h : tag.format = .movImmRm ∨ tag.format = .immAcc ∨ tag.format = .memAcc)
    (w : Bool) : (opcodeBase tag ||| bitAt w 0).getLsbD 0 = w := by
  rcases h with h | h | h <;> cases tag <;> cases h <;> revert w <;> decide

theorem fields_of_immReg (w : Bool) (r : BitVec 3) :
    (opcodeBase .movImmReg ||| bitAt w 3 ||| r.setWidth 8).getLsbD 3 = w ∧
      (opcodeBase .movImmReg ||| bitAt w 3 ||| r.setWidth 8).extractLsb' 0 3 = r := by
  revert w r; decide

theorem regOperand_encodeReg {w : Bool} {r : Operand} (h : wfRegister w r = true) : regOperand (encodeReg r) w = r := by
  cases r with
  | register c a => cases w <;> cases c <;> cases a <;> revert h <;> decide
  | memory | immediateData | labelOffset => cases h

theorem immRmTag_subDispatch {tag : OperationTag} (h : tag.format = .immRm) : immRmTag (subDispatch tag) = some tag := by
  cases tag <;> cases h <;> rfl

/-- The immediate after an opcode and its mode byte comes back. -/
theorem decodeImm_encodeModRm {w sext : Bool} {m : Operand} {v : Word} {nd : Nat} (b0 : Byte) (reg : BitVec 3)
    (rest : List Byte) (hm : wfRm w nd m = true) (hv : wfImmediate w sext (.immediateData v) = true) :
    decodeImm (b0 :: (encodeModRm reg nd m ++ (encodeImm w sext (.immediateData v) ++ rest))) (2 + nd) w sext =
      some (v, immediateBytes w sext) := by
  have hlen : (b0 :: encodeModRm reg nd m).length = 2 + nd := by
    rw [List.length_cons, Laws.EncodingLength.length_encodeModRm reg nd m w hm]; omega
  rw [← hlen]
  exact decodeImm_encodeImm (b0 :: encodeModRm reg nd m) rest w sext v hv

/-- Format by format: byte 0 selects the format's own decoder, and each part of the encoding comes back. -/
theorem decode_encodeFields {tag : OperationTag} {f : Fields} (h : Shape tag f) (rest : List Byte) :
    decode (encodeFields tag f ++ rest) = some (.ofTag tag f) := by
  cases h with
  | @rmReg _ w dir r m nd htag hr hm =>
    obtain ⟨hw, hd⟩ := flagBits_of_two (.inl htag) dir w
    rw [encodeFields_rmReg htag, List.cons_append, decode, decodeFrom_rmReg tag dir w _ htag]
    simp only [decodeRmReg, hw, hd, decodeModRm_encodeModRm _ _ _ _ _ _ hm, Option.bind_eq_bind, Option.bind_some,
      regOperand_encodeReg hr]
    cases dir <;> rfl
  | @immRm _ w sext m v nd htag hm hv =>
    obtain ⟨hw, hs⟩ := flagBits_of_two (.inr htag) sext w
    rw [encodeFields_immRm htag, List.cons_append, List.append_assoc, decode, decodeFrom_immRm tag sext w _ htag]
    simp only [decodeImmRm, hw, hs, decodeModRm_encodeModRm _ _ _ _ _ _ hm, Option.bind_eq_bind, Option.bind_some,
      immRmTag_subDispatch htag, decodeImm_encodeModRm _ _ rest hm hv, Option.pure_def]
  | @movImmRm w m v nd hm hv =>
    have hw := wideBit_of_one (tag := .movImmRm) (.inl rfl) w
    rw [encodeFields_movImmRm, List.cons_append, List.append_assoc, decode, decodeFrom_movImmRm]
    simp only [decodeMovImmRm, hw, decodeModRm_encodeModRm _ _ _ _ _ _ hm, Option.bind_eq_bind, Option.bind_some,
      if_true, decodeImm_encodeModRm _ _ rest hm hv, Option.pure_def]
  | @immReg w r v hr hv =>
    obtain ⟨hw, hreg⟩ := fields_of_immReg w (encodeReg r)
    have hi := decodeImm_encodeImm [opcodeBase .movImmReg ||| bitAt w 3 ||| (encodeReg r).setWidth 8] rest w false v hv
    rw [encodeFields_immReg, List.cons_append, decode, decodeFrom_immReg]
    simp only [decodeImmReg, hw, hreg, regOperand_encodeReg hr, Option.bind_eq_bind]
    exact congrArg (Option.bind · _) hi
  | @immAcc _ w v htag hv =>
    have hw := wideBit_of_one (.inr (.inl htag)) w
    have hi := decodeImm_encodeImm [opcodeBase tag ||| bitAt w 0] rest w false v hv
    rw [encodeFields_immAcc htag, List.cons_append, decode, decodeFrom_immAcc tag w _ htag]
    simp only [decodeImmAcc, hw, Option.bind_eq_bind]
    exact congrArg (Option.bind · _) hi
  | @memToAcc w a =>
    rw [encodeFields_memToAcc, List.cons_append, decode, decodeFrom_memAcc _ w _ rfl]
    cases w <;> simp [decodeMemAcc, byteAt, opcodeBase, bitAt]
  | @accToMem w a =>
    rw [encodeFields_accToMem, List.cons_append, decode, decodeFrom_memAcc _ w _ rfl]
    cases w <;> simp [decodeMemAcc, byteAt, opcodeBase, bitAt]
  | @rel8 _ k htag =>
    rw [encodeFields_rel8 htag]
    exact decodeFrom_rel8 tag _ htag
  | hlt => rfl

end Sys2Proof.Proofs.Encoding
end

section
/-! SUPPORT. The converse: whatever decodes has a shape, and its encoding is the bytes read (30_encoding.md sections 1,
2 and 3). Both round trips follow, and that no part of an encoding decodes. -/

namespace Sys2Proof.Proofs.Encoding

open Sys2Proof Sys2Proof.Machine

/-! ### What decodes was encoded -/

theorem wfRegister_regOperand (f : BitVec 3) (w : Bool) : wfRegister w (regOperand f w) = true := by
  revert f w; decide

theorem encodeReg_regOperand (f : BitVec 3) (w : Bool) : encodeReg (regOperand f w) = f := by
  revert f w; decide

theorem encodeRm_regOperand (nd : Nat) (f : BitVec 3) (w : Bool) : encodeRm nd (regOperand f w) = (3#2, f, []) := by
  have h : ∃ c a, regOperand f w = .register c a ∧ regCode c a = f := by
    unfold regOperand
    split_ifs
    · exact ⟨_, _, rfl, cellCode_cellOf f⟩
    · exact ⟨_, _, rfl, cellCode_cellOf f⟩
    · exact ⟨_, _, rfl, by rw [regCode, cellCode_cellOf]; exact BitVec.sub_add_cancel f 4⟩
  obtain ⟨c, a, hr, hc⟩ := h
  rw [hr, encodeRm, hc]
  rfl

theorem wfRm_regOperand (f : BitVec 3) (w : Bool) : wfRm w 0 (regOperand f w) = true := by
  revert f w; decide

/-- A word's bytes are the two it was made of. -/
theorem wordBytes_wordOf (hi lo : Byte) : wordBytes (wordOf hi lo) = [lo, hi] := by
  rw [wordBytes, loByte_wordOf, hiByte_wordOf]

/-- The converse of `decodeModRm_encodeModRm`: the mode byte and displacement read are the operand's encoding (R58). -/
theorem of_decodeModRm {b0 : Byte} {l : List Byte} {w : Bool} {reg : BitVec 3} {m : Operand} {nd : Nat}
    (h : decodeModRm (b0 :: l) 1 w = some (reg, m, nd)) :
    wfRm w nd m = true ∧ ∃ t, l = encodeModRm reg nd m ++ t := by
  rcases l with _ | ⟨mode, t⟩
  · cases h
  have hmode := modRmByte_fields mode
  simp only [decodeModRm, byteAt, List.getElem?_cons_succ, List.getElem?_cons_zero, Option.bind_eq_bind,
    Option.bind_some, Option.pure_def] at h
  split_ifs at h with h3 h6 h0 h1
  · cases h
    rw [h3] at hmode
    exact ⟨wfRm_regOperand _ w, t, by simp [encodeModRm, encodeRm_regOperand, hmode]⟩
  · rcases t with _ | ⟨lo, _ | ⟨hi, t⟩⟩ <;> cases h
    rw [h6.1, h6.2] at hmode
    exact ⟨rfl, t, by simp [encodeModRm, encodeRm, wordBytes_wordOf, hmode]⟩
  · cases h
    have hb : baseOf (rmField mode) ≠ .bp := fun hb => h6 ⟨h0, by rw [← baseCode_baseOf (rmField mode), hb]; rfl⟩
    rw [h0] at hmode
    exact ⟨by simp [wfRm, hb], t, by simp [encodeModRm, encodeRm, hmode]⟩
  · rcases t with _ | ⟨lo, t⟩ <;> cases h
    rw [h1] at hmode
    exact ⟨by simp [wfRm], t, by simp [encodeModRm, encodeRm, hmode]⟩
  · rcases t with _ | ⟨lo, _ | ⟨hi, t⟩⟩ <;> cases h
    have h2 : modField mode = 2#2 := by
      revert h3 h0 h1; generalize modField mode = x; revert x; decide
    rw [h2] at hmode
    exact ⟨by simp [wfRm], t, by simp [encodeModRm, encodeRm, wordBytes_wordOf, hmode]⟩

/-- The converse of `decodeImm_encodeImm` (R59). -/
theorem of_decodeImm {pre l : List Byte} {w sext : Bool} {v : Word} {ni : Nat}
    (h : decodeImm (pre ++ l) pre.length w sext = some (v, ni)) :
    wfImmediate w sext (.immediateData v) = true ∧ ni = immediateBytes w sext ∧
      ∃ t, l = encodeImm w sext (.immediateData v) ++ t := by
  have hbyte : ∀ k, byteAt (pre ++ l) (pre.length + k) = l[k]? := fun k => by
    rw [byteAt, List.getElem?_append_right (by omega), Nat.add_sub_cancel_left]
  have hbyte0 := hbyte 0
  rw [Nat.add_zero] at hbyte0
  rw [decodeImm, hbyte0, hbyte 1] at h
  rcases l with _ | ⟨lo, l⟩
  · cases h
  cases w with
  | false =>
    cases h
    exact ⟨by simp [wfImmediate], rfl, l, by simp [encodeImm]⟩
  | true =>
    cases sext with
    | false =>
      rcases l with _ | ⟨hi, l⟩ <;> cases h
      exact ⟨rfl, rfl, l, by simp [encodeImm, wordBytes]⟩
    | true =>
      cases h
      exact ⟨by simp [wfImmediate], rfl, l, by simp [encodeImm]⟩

/-! ### Byte 0 is the opcode with its flag bits -/

theorem rmRegTag_opcode : ∀ b : Byte, ∀ tag ∈ rmRegTag (b.extractLsb' 2 6),
    tag.format = .rmReg ∧ opcodeBase tag ||| bitAt (b.getLsbD 1) 1 ||| bitAt (b.getLsbD 0) 0 = b := by decide

theorem immRm_opcode : ∀ b : Byte, b.extractLsb' 2 6 = 0b100000#6 →
    0x80#8 ||| bitAt (b.getLsbD 1) 1 ||| bitAt (b.getLsbD 0) 0 = b := by decide

theorem immRmTag_opcode : ∀ reg : BitVec 3, ∀ tag ∈ immRmTag reg,
    tag.format = .immRm ∧ subDispatch tag = reg ∧ opcodeBase tag = 0x80#8 := by decide

theorem movImmRm_opcode : ∀ b : Byte, b.extractLsb' 1 7 = 0b1100011#7 →
    opcodeBase .movImmRm ||| bitAt (b.getLsbD 0) 0 = b := by decide

theorem immReg_opcode : ∀ b : Byte, b.extractLsb' 4 4 = 0b1011#4 →
    opcodeBase .movImmReg ||| bitAt (b.getLsbD 3) 3 ||| (b.extractLsb' 0 3).setWidth 8 = b := by decide

theorem immAccTag_opcode : ∀ b : Byte, ∀ tag ∈ immAccTag (b.extractLsb' 1 7),
    tag.format = .immAcc ∧ opcodeBase tag ||| bitAt (b.getLsbD 0) 0 = b := by decide

theorem memAcc_opcode : ∀ b : Byte, b.extractLsb' 2 6 = 0b101000#6 →
    opcodeBase (if b.getLsbD 1 then .movAccToMem else .movMemToAcc) ||| bitAt (b.getLsbD 0) 0 = b := by decide

theorem rel8Tag_opcode : ∀ b : Byte, ∀ tag ∈ rel8Tag b, tag.format = .rel8 ∧ opcodeBase tag = b := by decide

/-! ### Each format's decoder reads what the encoder writes -/

/-- The record has a shape, and its encoding stands at the start of the window. -/
def Reads (window : List Byte) (i : Instr) : Prop :=
  Shape i.operation i.fields ∧ ∃ t, window = encode i ++ t

theorem reads_ofTag {window t : List Byte} {tag : OperationTag} {f : Fields} (hshape : Shape tag f)
    (hbytes : window = encodeFields tag f ++ t) : Reads window (.ofTag tag f) :=
  ⟨by rwa [ofTag_operation, ofTag_fields], t, by rwa [encode, ofTag_operation, ofTag_fields]⟩

section
variable {tag : OperationTag} {b0 : Byte} {l : List Byte} {i : Instr}

theorem reads_decodeRmReg (htag : tag ∈ rmRegTag (b0.extractLsb' 2 6)) (h : decodeRmReg tag b0 (b0 :: l) = some i) :
    Reads (b0 :: l) i := by
  obtain ⟨hformat, hb0⟩ := rmRegTag_opcode b0 tag htag
  obtain ⟨⟨reg, m, nd⟩, hm, hrest⟩ := Option.bind_eq_some_iff.mp h
  obtain ⟨hwf, t, rfl⟩ := of_decodeModRm hm
  have hi : Instr.ofTag tag ⟨some (if b0.getLsbD 1 then regOperand reg (b0.getLsbD 0) else m),
      some (if b0.getLsbD 1 then m else regOperand reg (b0.getLsbD 0)), ⟨b0.getLsbD 0, b0.getLsbD 1, false⟩,
      2 + nd⟩ = i := by
    cases hd : b0.getLsbD 1 <;> rw [hd] at hrest <;> exact Option.some.inj hrest
  rw [← hi]
  refine reads_ofTag (t := t) (.rmReg hformat (wfRegister_regOperand _ _) hwf) ?_
  rw [encodeFields_rmReg hformat, encodeReg_regOperand, hb0]
  rfl

/-- The immediate that follows the mode byte and its displacement. -/
theorem of_decodeImm_after_modRm {w sext : Bool} {reg : BitVec 3} {m : Operand} {nd ni : Nat} {v : Word} {t : List Byte}
    (hwf : wfRm w nd m = true) (h : decodeImm (b0 :: (encodeModRm reg nd m ++ t)) (2 + nd) w sext = some (v, ni)) :
    wfImmediate w sext (.immediateData v) = true ∧ ni = immediateBytes w sext ∧
      ∃ t', t = encodeImm w sext (.immediateData v) ++ t' := by
  have hlen : 2 + nd = (b0 :: encodeModRm reg nd m).length := by
    rw [List.length_cons, Laws.EncodingLength.length_encodeModRm reg nd m w hwf]; omega
  rw [hlen] at h
  exact of_decodeImm (pre := b0 :: encodeModRm reg nd m) h

theorem reads_decodeImmRm (hb0 : b0.extractLsb' 2 6 = 0b100000#6) (h : decodeImmRm b0 (b0 :: l) = some i) :
    Reads (b0 :: l) i := by
  obtain ⟨⟨reg, m, nd⟩, hm, hrest⟩ := Option.bind_eq_some_iff.mp h
  obtain ⟨tag, htag, hrest⟩ := Option.bind_eq_some_iff.mp hrest
  obtain ⟨⟨v, ni⟩, hv, hrecord⟩ := Option.bind_eq_some_iff.mp hrest
  obtain ⟨hformat, hsub, hop⟩ := immRmTag_opcode reg tag htag
  obtain ⟨hwf, t, rfl⟩ := of_decodeModRm hm
  obtain ⟨hvwf, rfl, t', rfl⟩ := of_decodeImm_after_modRm hwf hv
  cases hrecord
  refine reads_ofTag (t := t') (.immRm hformat hwf hvwf) ?_
  rw [encodeFields_immRm hformat, hop, hsub, immRm_opcode b0 hb0, List.cons_append, List.append_assoc]

theorem reads_decodeMovImmRm (hb0 : b0.extractLsb' 1 7 = 0b1100011#7) (h : decodeMovImmRm b0 (b0 :: l) = some i) :
    Reads (b0 :: l) i := by
  obtain ⟨⟨reg, m, nd⟩, hm, hrest⟩ := Option.bind_eq_some_iff.mp h
  simp only at hrest
  split_ifs at hrest with hreg
  obtain ⟨⟨v, ni⟩, hv, hrecord⟩ := Option.bind_eq_some_iff.mp hrest
  obtain ⟨hwf, t, rfl⟩ := of_decodeModRm hm
  obtain ⟨hvwf, rfl, t', rfl⟩ := of_decodeImm_after_modRm hwf hv
  cases hrecord
  refine reads_ofTag (t := t') (.movImmRm hwf hvwf) ?_
  rw [encodeFields_movImmRm, movImmRm_opcode b0 hb0, List.cons_append, List.append_assoc, ← hreg]

theorem reads_decodeImmReg (hb0 : b0.extractLsb' 4 4 = 0b1011#4) (h : decodeImmReg b0 (b0 :: l) = some i) :
    Reads (b0 :: l) i := by
  obtain ⟨⟨v, ni⟩, hv, hrecord⟩ := Option.bind_eq_some_iff.mp h
  obtain ⟨hvwf, rfl, t, rfl⟩ := of_decodeImm (pre := [b0]) hv
  cases hrecord
  refine reads_ofTag (t := t) (.immReg (wfRegister_regOperand _ _) hvwf) ?_
  rw [encodeFields_immReg, encodeReg_regOperand, immReg_opcode b0 hb0, List.cons_append]

theorem reads_decodeImmAcc (htag : tag ∈ immAccTag (b0.extractLsb' 1 7)) (h : decodeImmAcc tag b0 (b0 :: l) = some i) :
    Reads (b0 :: l) i := by
  obtain ⟨hformat, hb0⟩ := immAccTag_opcode b0 tag htag
  obtain ⟨⟨v, ni⟩, hv, hrecord⟩ := Option.bind_eq_some_iff.mp h
  obtain ⟨hvwf, rfl, t, rfl⟩ := of_decodeImm (pre := [b0]) hv
  cases hrecord
  refine reads_ofTag (t := t) (.immAcc hformat hvwf) ?_
  rw [encodeFields_immAcc hformat, hb0, List.cons_append]

theorem reads_decodeMemAcc (hb0 : b0.extractLsb' 2 6 = 0b101000#6) (h : decodeMemAcc b0 (b0 :: l) = some i) :
    Reads (b0 :: l) i := by
  have hop := memAcc_opcode b0 hb0
  rcases l with _ | ⟨lo, _ | ⟨hi, t⟩⟩
  · cases h
  · cases h
  cases hd : b0.getLsbD 1 <;> simp only [decodeMemAcc, hd] at h hop <;> cases h
  · refine reads_ofTag (t := t) .memToAcc ?_
    rw [encodeFields_memToAcc, loByte_wordOf, hiByte_wordOf]
    exact congrArg (· :: lo :: hi :: t) hop.symm
  · refine reads_ofTag (t := t) .accToMem ?_
    rw [encodeFields_accToMem, loByte_wordOf, hiByte_wordOf]
    exact congrArg (· :: lo :: hi :: t) hop.symm

theorem reads_decodeRel8 (htag : tag ∈ rel8Tag b0) (h : decodeRel8 tag (b0 :: l) = some i) : Reads (b0 :: l) i := by
  obtain ⟨hformat, hb0⟩ := rel8Tag_opcode b0 tag htag
  rcases l with _ | ⟨k, t⟩ <;> cases h
  refine reads_ofTag (t := t) (.rel8 hformat) ?_
  rw [encodeFields_rel8 hformat, hb0]
  rfl

end

/-- Byte 0 selects one format, and that format's decoder reads an encoding. -/
theorem reads_of_decode {window : List Byte} {i : Instr} (h : decode window = some i) : Reads window i := by
  rcases window with _ | ⟨b0, l⟩
  · cases h
  simp only [decode, decodeFrom] at h
  split at h
  · exact reads_decodeImmReg ‹_› h
  split at h
  · exact reads_decodeRmReg ‹_› h
  split at h
  · exact reads_decodeImmRm ‹_› h
  split at h
  · exact reads_decodeImmAcc ‹_› h
  split at h
  · exact reads_decodeMemAcc ‹_› h
  split at h
  · exact reads_decodeMovImmRm ‹_› h
  split at h
  · exact reads_decodeRel8 ‹_› h
  split at h
  · rename_i hb0
    cases h
    exact ⟨.hlt, l, by rw [hb0]; rfl⟩
  · cases h

/-! ### Sizes -/

theorem wfRm_displacement_le {w : Bool} {nd : Nat} {m : Operand} (h : wfRm w nd m = true) : nd ≤ 2 := by
  cases m with
  | register c a => simp_all [wfRm]
  | memory ea =>
    cases ea with
    | direct a => simp_all [wfRm]
    | calculated b d => simp only [wfRm, Bool.or_eq_true, Bool.and_eq_true, beq_iff_eq] at h; omega
  | immediateData | labelOffset => cases h

theorem immediateBytes_bounds (w sext : Bool) : 1 ≤ immediateBytes w sext ∧ immediateBytes w sext ≤ 2 := by
  revert w sext; decide

/-- Every encoding is 1 to 6 bytes long (R74). -/
theorem size_of_shape {tag : OperationTag} {f : Fields} (h : Shape tag f) : 1 ≤ f.size ∧ f.size ≤ 6 := by
  cases h with
  | rmReg _ _ hm => have := wfRm_displacement_le hm; constructor <;> simp only <;> omega
  | @immRm _ w sext m v nd _ hm =>
    have := wfRm_displacement_le hm
    have := immediateBytes_bounds w sext
    constructor <;> simp only <;> omega
  | @movImmRm w m v nd hm =>
    have := wfRm_displacement_le hm
    have := immediateBytes_bounds w false
    constructor <;> simp only <;> omega
  | @immReg w | @immAcc _ w =>
    have := immediateBytes_bounds w false
    constructor <;> simp only <;> omega
  | memToAcc | accToMem | rel8 | hlt => simp

/-! ### The two round trips -/

/-- Settles O1: a well-formed record has one of the shapes, and each comes back from its encoding. -/
theorem decodeEncodeRoundTrip : Obligations.DecodeEncodeRoundTrip := by
  intro i rest h
  have hback := decode_encodeFields (shape_of_wf h) rest
  rwa [ofTag_eta] at hback

theorem wellFormed_of_decode {window : List Byte} {i : Instr} (h : decode window = some i) : WellFormed i := by
  have hwf := wf_of_shape (reads_of_decode h).1
  rwa [ofTag_eta] at hwf

/-- Settles O2: the record decoded has a shape, so its encoding, which starts the window, is as long as its size. -/
theorem decodedRecordReencodes : Obligations.DecodedRecordReencodes := by
  intro window i h
  have hwf := wellFormed_of_decode h
  have hlen := Laws.EncodingLength.of_wf i hwf
  obtain ⟨hshape, t, rfl⟩ := reads_of_decode h
  obtain ⟨hone, hsix⟩ := size_of_shape hshape
  refine ⟨hwf, hone, hsix, ?_, ?_⟩
  · rw [List.length_append, hlen]; exact Nat.le_add_right _ _
  · rw [← hlen, List.take_left]

/-- Settles O6: a record decoded from a part of an encoding would be decoded from the whole as well, so it would be the whole
record, which is longer. -/
theorem cutInstructionIsNone : Obligations.CutInstructionIsNone := by
  intro i k hwf hk
  by_contra hne
  obtain ⟨j, hj⟩ := Option.ne_none_iff_exists'.mp hne
  obtain ⟨hjwf, -, -, hjlen, hjbytes⟩ := decodedRecordReencodes _ j hj
  obtain ⟨-, t, ht⟩ := reads_of_decode hj
  have hwhole : decode (encode i) = some j := by
    rw [← List.take_append_drop k (encode i), ht, List.append_assoc]
    exact decodeEncodeRoundTrip j _ hjwf
  have hself : decode (encode i) = some i := by
    have := decodeEncodeRoundTrip i [] hwf
    rwa [List.append_nil] at this
  obtain rfl : i = j := Option.some.inj (hself.symm.trans hwhole)
  rw [List.length_take] at hjlen
  omega

end Sys2Proof.Proofs.Encoding
end

section
/-! SUPPORT. Which windows do not decode, how the fetch and the disassembly sweep use the decoder (30_encoding.md
sections 4 to 6, 20_memory.md section 9, 47_formatter.md section 3). -/

namespace Sys2Proof.Proofs.Decoder

open Sys2Proof Sys2Proof.Machine

/-- Settles O3: each word runs through the decoder. -/
theorem writtenWordsDecode : Obligations.WrittenWordsDecode := by
  refine ⟨?_, ?_, ?_, ?_, ?_, ?_, ?_, ?_, ?_, ?_⟩ <;> decide

/-! ### Bytes that no class matches -/

/-- Byte 0 belongs to none of R57's classes and is none of the exact matches. -/
def NoClass (b : Byte) : Prop :=
  b.extractLsb' 4 4 ≠ 0b1011#4 ∧ rmRegTag (b.extractLsb' 2 6) = none ∧ b.extractLsb' 2 6 ≠ 0b100000#6 ∧
    immAccTag (b.extractLsb' 1 7) = none ∧ b.extractLsb' 2 6 ≠ 0b101000#6 ∧ b.extractLsb' 1 7 ≠ 0b1100011#7 ∧
    rel8Tag b = none ∧ b ≠ hltOpcode

theorem decode_of_noClass {b : Byte} (h : NoClass b) (rest : List Byte) : decode (b :: rest) = none := by
  obtain ⟨himmReg, hrmReg, himmRm, himmAcc, hmemAcc, hmovImmRm, hrel8, hhlt⟩ := h
  simp only [decode, decodeFrom, himmReg, hrmReg, himmRm, himmAcc, hmemAcc, hmovImmRm, hrel8, hhlt, if_false]

/-- Every byte of a class begins an instruction: with zero bytes after it the sub-dispatch field is one that is defined. -/
theorem noClass_of_decode_zeros : ∀ b : Byte, decode [b, 0, 0, 0, 0, 0] = none → NoClass b := by
  unfold NoClass; decide

/-- R69's list of the bytes in no class. -/
theorem noClass_iff_listed : ∀ b : Byte, NoClass b ↔
    ∃ r ∈ [(0x06, 0x27), (0x2E, 0x37), (0x3E, 0x6F), (0x84, 0x87), (0x8C, 0x9F), (0xA4, 0xAF),
           (0xC0, 0xC5), (0xC8, 0xDF), (0xE4, 0xF3), (0xF5, 0xFF)], r.1 ≤ b.toNat ∧ b.toNat ≤ r.2 := by
  unfold NoClass; decide

/-- Settles O4: the bytes that never decode are those in no class, which are the listed ones. -/
theorem firstBytesThatNeverDecode : Obligations.FirstBytesThatNeverDecode := by
  intro b
  rw [← noClass_iff_listed]
  exact ⟨fun h => noClass_of_decode_zeros b (h _), decode_of_noClass⟩

/-! ### Reserved sub-dispatch fields -/

/-- The `reg` field decoded is the mode byte's. -/
theorem decodeModRm_reg {b0 m : Byte} {rest : List Byte} {w : Bool} {reg : BitVec 3} {o : Operand} {nd : Nat}
    (h : decodeModRm (b0 :: m :: rest) 1 w = some (reg, o, nd)) : reg = regField m := by
  obtain ⟨-, t, ht⟩ := Encoding.of_decodeModRm h
  obtain ⟨rfl, -⟩ := List.cons.inj ht
  rw [regField_modRmByte]

theorem decodeImmRm_of_reserved {b0 m : Byte} {rest : List Byte} (h : immRmTag (regField m) = none) :
    decodeImmRm b0 (b0 :: m :: rest) = none := by
  cases hm : decodeModRm (b0 :: m :: rest) 1 (b0.getLsbD 0) with
  | none => simp only [decodeImmRm, hm]; rfl
  | some parts =>
    have hreg := decodeModRm_reg hm
    simp only [decodeImmRm, hm, hreg, h, Option.bind_eq_bind, Option.bind_some, Option.bind_none]

theorem decodeMovImmRm_of_reserved {b0 m : Byte} {rest : List Byte} (h : regField m ≠ 0) :
    decodeMovImmRm b0 (b0 :: m :: rest) = none := by
  cases hm : decodeModRm (b0 :: m :: rest) 1 (b0.getLsbD 0) with
  | none => simp only [decodeMovImmRm, hm]; rfl
  | some parts =>
    have hreg := decodeModRm_reg hm
    simp only [decodeMovImmRm, hm, hreg, Option.bind_eq_bind, Option.bind_some]
    exact if_neg h

theorem decode_immRm (b0 : Byte) (h : 0x80 ≤ b0.toNat ∧ b0.toNat ≤ 0x83) (rest : List Byte) :
    decode (b0 :: rest) = decodeImmRm b0 (b0 :: rest) := by
  have hb : ∃ s w, b0 = opcodeBase .addImmRm ||| bitAt s 1 ||| bitAt w 0 := by revert b0; decide
  obtain ⟨s, w, rfl⟩ := hb
  exact decodeFrom_immRm .addImmRm s w _ rfl

theorem decode_movImmRm (b0 : Byte) (h : 0xC6 ≤ b0.toNat ∧ b0.toNat ≤ 0xC7) (rest : List Byte) :
    decode (b0 :: rest) = decodeMovImmRm b0 (b0 :: rest) := by
  have hb : ∃ w, b0 = opcodeBase .movImmRm ||| bitAt w 0 := by revert b0; decide
  obtain ⟨w, rfl⟩ := hb
  exact decodeFrom_movImmRm w _

/-- Settles O5: byte 0 selects the format, whose decoder fails on the field. -/
theorem reservedSubDispatchIsNone : Obligations.ReservedSubDispatchIsNone := by
  rintro b0 m rest (⟨hlo, hhi, h0, h5, h7⟩ | ⟨hlo, hhi, h0⟩)
  · have htag : immRmTag (regField m) = none :=
      (if_neg h0).trans ((if_neg h5).trans (if_neg h7))
    rw [decode_immRm b0 ⟨hlo, hhi⟩, decodeImmRm_of_reserved htag]
  · rw [decode_movImmRm b0 ⟨hlo, hhi⟩, decodeMovImmRm_of_reserved h0]

/-! ### The fetch -/

/-- The fetch window, byte by byte. -/
theorem getElem?_fetchWindow (s : State) (k : Nat) :
    (fetchWindow s)[k]? =
      if k < 6 ∧ s.ip.toNat + k ≤ 65535 then some (readByte s.mem (s.ip.toNat + k)) else none := by
  rw [fetchWindow, List.getElem?_map]
  split
  · rw [List.getElem?_range (by omega)]; rfl
  · rw [List.getElem?_eq_none (by rw [List.length_range]; omega)]; rfl

theorem getElem?_memoryImage (m : List Host.Cell) (a : Nat) :
    (memoryImage m)[a]? = if a ≤ 65535 then some (readByte m a) else none := by
  rw [memoryImage, List.getElem?_map]
  split
  · rw [List.getElem?_range (by omega)]; rfl
  · rw [List.getElem?_eq_none (by rw [List.length_range]; omega)]; rfl

theorem fetchWindow_eq_take (s : State) : fetchWindow s = ((memoryImage s.mem).drop s.ip.toNat).take 6 := by
  apply List.ext_getElem?
  intro k
  rw [getElem?_fetchWindow, List.getElem?_take, List.getElem?_drop, getElem?_memoryImage]
  by_cases hk : k < 6 <;> simp [hk]

/-- Settles O8: the window is the first six bytes of memory from IP on, and six bytes suffice. -/
theorem fetchDecodesMemoryAtIp : Obligations.FetchDecodesMemoryAtIp := by
  intro s
  rw [fetchDecode, fetchWindow_eq_take, DecodeWindow.decode_take, decodeAt]

/-- Settles O55: the window after the write, byte by byte. -/
theorem storeIsFetchedNext : Obligations.StoreIsFetchedNext := by
  intro s a k v hk hip
  rw [getElem?_fetchWindow, if_pos ⟨hk, hip⟩, readByte_writeByte]

/-! ### The disassembly sweep -/

/-- Bytes to skip are dropped. -/
theorem sweep_skip (bytes : List Byte) (n : Nat) : sweep bytes n = sweep (bytes.drop n) 0 := by
  induction n generalizing bytes with
  | zero => rfl
  | succ n ih =>
    cases bytes with
    | nil => rfl
    | cons b rest => exact ih rest

/-- Settles O57: an instruction has at least one byte, and the sweep skips the others. -/
theorem disassemblySweepRule : Obligations.DisassemblySweepRule := by
  intro b rest
  rw [sweep]
  cases h : decode (b :: rest) with
  | none => rfl
  | some i =>
    obtain ⟨-, hsize, -⟩ := Encoding.decodedRecordReencodes _ i h
    obtain ⟨n, hn⟩ := Nat.exists_eq_add_of_le' hsize
    simp only [hn, List.drop_succ_cons, Nat.add_sub_cancel]
    rw [sweep_skip]

end Sys2Proof.Proofs.Decoder
end

section
/-! SUPPORT. Memory accesses, effective addresses and operand accesses (20_memory.md section 3, 40_operands.md), and
what a load leaves in memory (70_reset_and_hazards.md section 1). -/

namespace Sys2Proof.Proofs.MemoryAccess

open Sys2Proof Sys2Proof.Machine Sys2Proof.Proofs.RegisterAccess

/-! ### Reads and writes of one or two bytes -/

theorem zextByte_eq_ofNat (b : Byte) : zextByte b = BitVec.ofNat 16 b.toNat := by
  apply BitVec.eq_of_toNat_eq
  rw [toNat_zextByte, BitVec.toNat_ofNat]
  omega

theorem wordOf_eq_ofNat (hi lo : Byte) : wordOf hi lo = BitVec.ofNat 16 (hi.toNat * 256 + lo.toNat) := by
  apply BitVec.eq_of_toNat_eq
  rw [toNat_wordOf, BitVec.toNat_ofNat]
  omega

theorem accessBytes_byte : accessBytes false = 1 := rfl

theorem accessBytes_word : accessBytes true = 2 := rfl

theorem memRead_of_inBounds {m : List Host.Cell} {addr : Int} {wide : Bool}
    (h : 0 ≤ addr ∧ addr + (accessBytes wide : Int) - 1 ≤ 65535) : memRead m addr wide = .ok (memValue m addr.toNat wide) :=
  if_pos ((inBounds_iff addr wide).mpr h)

theorem memRead_of_outOfBounds {m : List Host.Cell} {addr : Int} {wide : Bool}
    (h : ¬(0 ≤ addr ∧ addr + (accessBytes wide : Int) - 1 ≤ 65535)) : memRead m addr wide = .error (.bounds addr) :=
  if_neg (mt (inBounds_iff addr wide).mp h)

/-- Settles O11: in bounds the value is the byte or the two bytes, out of bounds the read raises. -/
theorem memReadRule : Obligations.MemReadRule := by
  intro m a addr
  refine ⟨fun h => ?byte, fun h => ?word, fun h => ?byteOut, fun h => ?wordOut⟩
  case byte =>
    rw [memRead_of_inBounds (by rw [accessBytes_byte]; omega), Int.toNat_natCast, ← zextByte_eq_ofNat]
    rfl
  case word =>
    rw [memRead_of_inBounds (by rw [accessBytes_word]; omega), Int.toNat_natCast, ← wordOf_eq_ofNat]
    rfl
  case byteOut => exact memRead_of_outOfBounds (by rw [accessBytes_byte]; omega)
  case wordOut => exact memRead_of_outOfBounds (by rw [accessBytes_word]; omega)

theorem readByte_memStore_low (m : List Host.Cell) (a : Nat) (wide : Bool) (v : Word) :
    readByte (memStore m a wide v) a = loByte v := by
  cases wide with
  | false => exact readByte_writeByte_same m a _
  | true => exact (readByte_writeByte_other _ _ (by omega)).trans (readByte_writeByte_same m a _)

theorem readByte_memStore_high (m : List Host.Cell) (a : Nat) (v : Word) :
    readByte (memStore m a true v) (a + 1) = hiByte v :=
  readByte_writeByte_same _ (a + 1) _

/-- Settles O12: in bounds the write is the store, which holds the value's bytes and keeps the others. -/
theorem memWriteChangesItsBytesOnly : Obligations.MemWriteChangesItsBytesOnly := by
  intro m addr wide v
  refine ⟨fun h => ⟨memStore m addr.toNat wide v, if_pos ((inBounds_iff addr wide).mpr h), ?low, ?high, ?others⟩,
    fun h => if_neg (mt (inBounds_iff addr wide).mp h)⟩
  case low => rw [readByte_memStore_low, toNat_loByte]
  case high =>
    rintro rfl
    rw [readByte_memStore_high, toNat_hiByte]
  case others =>
    intro a ha
    exact readByte_memStore_other m _ a wide v (by omega)

/-! ### Effective addresses -/

theorem baseSum_le (r : Regs) (b : Base) : baseSum r b ≤ 131070 := by
  cases b <;> simp only [baseSum] <;> omega

/-- R37's range of an address. -/
theorem effectiveAddress_bounds (r : Regs) (ea : EffectiveAddress) :
    -32768 ≤ effectiveAddress r ea ∧ effectiveAddress r ea ≤ 163837 := by
  cases ea with
  | direct a => simp only [effectiveAddress]; omega
  | calculated b d =>
    have := baseSum_le r b
    have hlo : -32768 ≤ d.toInt := BitVec.le_toInt d
    have hhi : d.toInt < 32768 := BitVec.toInt_lt
    simp only [effectiveAddress]
    omega

/-- Settles O13: each base by its definition, and the range. -/
theorem effectiveAddressRule : Obligations.EffectiveAddressRule := by
  intro r a d
  refine ⟨rfl, ?_, ?_, ?_, ?_, rfl, rfl, rfl, rfl, effectiveAddress_bounds r⟩ <;>
    simp only [effectiveAddress, baseSum, Int.natCast_add]

/-- Settles O14: a memory operand is written by `memWrite`; every other case is the definition. -/
theorem operandAccessRule : Obligations.OperandAccessRule := by
  intro s w u v c a ea k
  refine ⟨rfl, rfl, rfl, rfl, rfl, fun m hm => ?_, fun e he => ?_, rfl, rfl⟩
  · rw [writeOperand, hm]
  · rw [writeOperand, he]

/-! ### Load -/

theorem load_of_fits (s : State) {program : List Byte} (h : program.length ≤ 65535) :
    load s program =
      { State.reset with mem := placeBytes [] 0 (program ++ [hltOpcode]), wired := s.wired } :=
  if_pos h

theorem load_of_tooLong (s : State) {program : List Byte} (h : 65535 < program.length) :
    load s program = { s with status := .loadRefused } :=
  if_neg (by omega)

/-- Settles O23: both flags are clear, and memory is the one entry of the sentinel. -/
theorem resetMeetsInvariant : Obligations.ResetMeetsInvariant := by
  rw [Obligations.ResetMeetsInvariant]
  decide

/-- Settles O24: the flags are clear, and placing bytes in empty memory keeps the canonical form. -/
theorem loadEstablishesInvariant : Obligations.LoadEstablishesInvariant := by
  intro s program h
  rw [load_of_fits s h]
  exact ⟨Memory.wf_placeBytes 0 _ rfl, fun hflags => Bool.false_ne_true hflags.1⟩

/-- Settles O51: reset's fields, its one memory entry, and that the empty program fits. -/
theorem resetState : Obligations.ResetState := by
  refine ⟨fun c => by cases c <;> rfl, rfl, rfl, rfl, rfl, rfl, fun a ha => ?_, rfl, ?_⟩
  · exact if_neg (Ne.symm ha)
  · exact load_of_fits State.reset (Nat.zero_le _)

/-- A byte of the memory that a load leaves. -/
theorem readByte_placed_program (program : List Byte) {a : Nat} (h : a ≤ 65535) :
    readByte (placeBytes [] 0 (program ++ [hltOpcode])) a = ((program ++ [hltOpcode])[a]?).getD 0 := by
  rw [readByte_placeBytes _ _ _ _ h, if_pos (Nat.zero_le a)]
  rfl

/-- Settles O52: below the program's length a byte of it, at its length the sentinel, above it what memory is filled with. -/
theorem loadPlacesProgramAndSentinel : Obligations.LoadPlacesProgramAndSentinel := by
  rintro s program hlen t rfl
  rw [load_of_fits s hlen]
  refine ⟨fun a ha => ?program, ?sentinel, fun a hlo hhi => ?above, fun c => by cases c <;> rfl, rfl, rfl, rfl, rfl⟩
  case program =>
    rw [readByte_placed_program _ (by omega), List.getElem?_append_left ha, List.getElem?_eq_getElem ha]
    rfl
  case sentinel =>
    rw [readByte_placed_program _ hlen, List.getElem?_append_right (le_refl _), Nat.sub_self]
    rfl
  case above =>
    rw [readByte_placed_program _ hhi, List.getElem?_eq_none (by rw [List.length_append, List.length_singleton]; omega)]
    rfl

/-- Settles O53: a refused load stops the machine, which stays as it is. -/
theorem tooLongProgramIsRefused : Obligations.TooLongProgramIsRefused := by
  intro s program h
  rw [load_of_tooLong s h]
  exact ⟨rfl, if_neg (by simp)⟩

end Sys2Proof.Proofs.MemoryAccess
end

section
/-! SUPPORT. Everything an instruction can do, as one relation: each way it ends, with the checks that lead there in the
order of 60_exceptions.md R269. `exec` is this relation: each case is what `exec` answers, and the cases leave nothing
out. -/

namespace Sys2Proof.Proofs.Outcomes

open Sys2Proof Sys2Proof.Machine

/-! ### The families of operations -/

/-- An operation with a destination and a source: `mov`, `add`, `sub` or `cmp`. -/
abbrev IsPair (op : OperationTag) : Prop := op.format ≠ .rel8 ∧ op ≠ .hlt

/-- The counter after the decrement of a loop (45_loops.md R190); no other operation counts. -/
def countDown : OperationTag → State → State
  | .loop, s | .loopz, s | .loopnz, s => decrementCx s
  | _, s => s

@[simp] theorem countDown_mem (op : OperationTag) (s : State) : (countDown op s).mem = s.mem := by
  unfold countDown; split <;> rfl
@[simp] theorem countDown_zf (op : OperationTag) (s : State) : (countDown op s).zf = s.zf := by
  unfold countDown; split <;> rfl
@[simp] theorem countDown_sf (op : OperationTag) (s : State) : (countDown op s).sf = s.sf := by
  unfold countDown; split <;> rfl
@[simp] theorem countDown_ip (op : OperationTag) (s : State) : (countDown op s).ip = s.ip := by
  unfold countDown; split <;> rfl
@[simp] theorem countDown_status (op : OperationTag) (s : State) : (countDown op s).status = s.status := by
  unfold countDown; split <;> rfl
@[simp] theorem countDown_wired (op : OperationTag) (s : State) : (countDown op s).wired = s.wired := by
  unfold countDown; split <;> rfl

theorem isPair_of_aluOp {op : OperationTag} {a : AluOp} (h : aluOpOf op = some a) : IsPair op := by
  cases op with
  | addRmReg | addImmRm | addImmAcc | subRmReg | subImmRm | subImmAcc | cmpRmReg | cmpImmRm | cmpImmAcc => decide
  | movRmReg | movImmRm | movImmReg | movMemToAcc | movAccToMem | jo | jno | jb | jnb | je | jne | jbe | ja | js | jns | jp
  | jnp | jl | jnl | jle | jg | jcxz | loop | loopz | loopnz | hlt => cases h

theorem format_of_wired {w : Wired} {op : OperationTag} (h : isWired w op = true) : op.format = .rel8 := by
  cases op with
  | je | jne | js | jns | jcxz | loop | loopz | loopnz => rfl
  | movRmReg | movImmRm | movImmReg | movMemToAcc | movAccToMem | addRmReg | addImmRm | addImmAcc | subRmReg | subImmRm
  | subImmAcc | cmpRmReg | cmpImmRm | cmpImmAcc | jo | jno | jb | jnb | jbe | ja | jp | jnp | jl | jnl | jle | jg | hlt =>
    cases h

theorem exec_mov (i : Instr) (s : State) (hpair : IsPair i.operation) (halu : aluOpOf i.operation = none) :
    exec i s = execMov i.fields s := by
  cases i with
  | movRmReg | movImmRm | movImmReg | movMemToAcc | movAccToMem => rfl
  | addRmReg | addImmRm | addImmAcc | subRmReg | subImmRm | subImmAcc | cmpRmReg | cmpImmRm | cmpImmAcc => cases halu
  | jo | jno | jb | jnb | je | jne | jbe | ja | js | jns | jp | jnp | jl | jnl | jle | jg | jcxz | loop | loopz | loopnz =>
    exact absurd rfl hpair.1
  | hlt => exact absurd rfl hpair.2

theorem exec_alu (i : Instr) (s : State) {a : AluOp} (halu : aluOpOf i.operation = some a) :
    exec i s = execAlu a i.fields s := by
  cases i <;> cases halu <;> rfl

theorem exec_hlt (i : Instr) (s : State) (h : i.operation = .hlt) : exec i s = .next (halt s) := by
  cases i <;> cases h
  rfl

/-- The one meaning behind all jumps and loops: the wiring test, then the branch or the fall through. -/
def execBranch (op : OperationTag) (f : Fields) (s : State) : Host.Outcome State Fault Refusal :=
  conclude s (do
    let s1 ← advance f.size s
    let k ← branchOffset f
    requireWired op s1
    if branchTaken s1 op then branchTo k (countDown op s1) else .ok (countDown op s1))

/-- A never wired jump fails the wiring test, and `loop` has no condition beside the counter. -/
theorem exec_branch (i : Instr) (s : State) (h : i.operation.format = .rel8) :
    exec i s = execBranch i.operation i.fields s := by
  cases i with
  | loop f =>
    show execLoopWith .loop (fun _ => true) f s = execBranch .loop f s
    simp only [execLoopWith, Bool.and_true]
    rfl
  | jo | jno | jb | jnb | je | jne | jbe | ja | js | jns | jp | jnp | jl | jnl | jle | jg | jcxz | loopz | loopnz => rfl
  | movRmReg | movImmRm | movImmReg | movMemToAcc | movAccToMem | addRmReg | addImmRm | addImmAcc | subRmReg | subImmRm
  | subImmAcc | cmpRmReg | cmpImmRm | cmpImmAcc | hlt => cases h

/-! ### The relation -/

/-- Why an instruction is cut short from `s`, with the abort it raises. -/
inductive Cause (i : Instr) (s : State) : Abort → Prop where
  /-- IP cannot move past the instruction (41_cycle.md R113). -/
  | pastTop (hop : i.operation ≠ .hlt) (htop : ¬NextInRange i.fields s) :
      Cause i s (.bounds ((s.ip.toNat + i.fields.size : Nat) : Int))
  /-- An invalid pair of operands (40_operands.md R101). -/
  | badPair (hop : IsPair i.operation) (hnext : NextInRange i.fields s) (hbad : ∀ d src, ¬HasPair i.fields d src) :
      Cause i s .operand
  /-- A memory operand out of bounds (20_memory.md R38). -/
  | outOfBounds {d src : Operand} {ea : EffectiveAddress} (hop : IsPair i.operation) (hpair : HasPair i.fields d src)
      (hnext : NextInRange i.fields s) (hea : d = .memory ea ∨ src = .memory ea)
      (hout : inBounds (effectiveAddress s.regs ea) i.fields.flags.wide = false) :
      Cause i s (.bounds (effectiveAddress s.regs ea))
  /-- A jump or loop without its label (44_jumps.md R160, 45_loops.md R190). -/
  | badOffset (hop : i.operation.format = .rel8) (hnext : NextInRange i.fields s) (hbad : ∀ k, ¬HasOffset i.fields k) :
      Cause i s .operand
  /-- A jump or loop outside WIRED (44_jumps.md R162). -/
  | unwired {k : Byte} (hop : i.operation.format = .rel8) (hoffset : HasOffset i.fields k)
      (hnext : NextInRange i.fields s) (hwired : isWired s.wired i.operation = false) :
      Cause i s (.unimplemented i.operation)
  /-- A taken branch to a target that is no address (44_jumps.md R180). -/
  | targetOut {k : Byte} (hoffset : HasOffset i.fields k) (hnext : NextInRange i.fields s)
      (hwired : isWired s.wired i.operation = true) (htaken : branchTaken s i.operation = true)
      (hout : ¬TargetInRange i.fields k s) : Cause i s (.bounds (branchTarget i.fields k s))

/-- The state that an instruction completed from `s` commits. -/
inductive Commit (i : Instr) (s : State) : State → Prop where
  /-- `mov` (42_mov.md R130). -/
  | moves {d src : Operand} (hop : IsPair i.operation) (halu : aluOpOf i.operation = none)
      (hpair : HasPair i.fields d src) (hnext : NextInRange i.fields s)
      (hd : accessible s i.fields.flags.wide d = true) (hsrc : accessible s i.fields.flags.wide src = true) :
      Commit i s
        (storeOperand (pastInstr i.fields s) i.fields.flags.wide (operandValue s i.fields.flags.wide src) d)
  /-- `add`, `sub` or `cmp` (43_arith.md R140). -/
  | computes {a : AluOp} {d src : Operand} {r : Word} (halu : aluOpOf i.operation = some a)
      (hpair : HasPair i.fields d src) (hnext : NextInRange i.fields s)
      (hd : accessible s i.fields.flags.wide d = true) (hsrc : accessible s i.fields.flags.wide src = true)
      (hr : r = aluResult a (operandValue s i.fields.flags.wide d) (operandValue s i.fields.flags.wide src)) :
      Commit i s
        (setFlags
          (if aluStores a then storeOperand (pastInstr i.fields s) i.fields.flags.wide r d else pastInstr i.fields s)
          i.fields.flags.wide r)
  /-- A taken branch (44_jumps.md R160, 45_loops.md R190). -/
  | branches {k : Byte} (hoffset : HasOffset i.fields k) (hnext : NextInRange i.fields s)
      (hwired : isWired s.wired i.operation = true) (htaken : branchTaken s i.operation = true)
      (hin : TargetInRange i.fields k s) :
      Commit i s { countDown i.operation s with ip := BitVec.ofInt 16 (branchTarget i.fields k s) }
  /-- A branch not taken. -/
  | fallsThrough {k : Byte} (hoffset : HasOffset i.fields k) (hnext : NextInRange i.fields s)
      (hwired : isWired s.wired i.operation = true) (htaken : branchTaken s i.operation = false) :
      Commit i s (pastInstr i.fields (countDown i.operation s))

/-- The three ends of an instruction. -/
inductive Outcome (i : Instr) (s : State) : State → Prop where
  | halts (hop : i.operation = .hlt) : Outcome i s (halt s)
  | raises {e : Abort} (hcause : Cause i s e) : Outcome i s (raise s e)
  | commits {t : State} (hcommit : Commit i s t) : Outcome i s t

/-! ### Reading operands past the instruction -/

theorem readOperand_of_accessible {s : State} {w : Bool} {o : Operand} (f : Fields) (hfits : operandFits w o = true)
    (hacc : accessible s w o = true) : readOperand (pastInstr f s) w o = .ok (operandValue s w o) := by
  rw [readOperand_eq _ _ _ hfits, accessible_pastInstr, if_pos hacc, operandValue_pastInstr]

theorem readOperand_of_outOfBounds {s : State} {w : Bool} {ea : EffectiveAddress} (f : Fields)
    (hout : inBounds (effectiveAddress s.regs ea) w = false) :
    readOperand (pastInstr f s) w (.memory ea) = .error (.bounds (effectiveAddress s.regs ea)) :=
  if_neg (by simp [hout])

theorem writeOperand_of_accessible {s : State} {w : Bool} {o : Operand} (f : Fields) (v : Word)
    (hdest : isDestination o = true) (hacc : accessible s w o = true) :
    writeOperand (pastInstr f s) w v o = .ok (storeOperand (pastInstr f s) w v o) := by
  rw [writeOperand_eq _ _ _ _ hdest, accessible_pastInstr, if_pos hacc]

theorem writeOperand_of_outOfBounds {s : State} {w : Bool} {ea : EffectiveAddress} (f : Fields) (v : Word)
    (hout : inBounds (effectiveAddress s.regs ea) w = false) :
    writeOperand (pastInstr f s) w v (.memory ea) = .error (.bounds (effectiveAddress s.regs ea)) := by
  have hacc : accessible s w (.memory ea) = false := hout
  rw [writeOperand_eq _ _ _ _ rfl, accessible_pastInstr, hacc]
  rfl

/-- Only a memory operand can be out of bounds. -/
theorem memory_of_not_accessible {s : State} {w : Bool} {o : Operand} (h : accessible s w o = false) :
    ∃ ea, o = .memory ea ∧ inBounds (effectiveAddress s.regs ea) w = false := by
  cases o with
  | memory ea => exact ⟨ea, rfl, h⟩
  | register | immediateData | labelOffset => cases h

/-- Beside a memory destination the source is no memory operand. -/
theorem accessible_source_of_memory {w : Bool} {ea : EffectiveAddress} {src : Operand} (s : State)
    (h : validPair w (.memory ea) src = true) : accessible s w src = true := by
  obtain ⟨-, -, -, hone⟩ := validPair_cases h
  cases src with
  | memory => exact absurd ⟨rfl, rfl⟩ hone
  | register | immediateData | labelOffset => rfl

/-! ### Two operands -/

theorem operandPair_of_bad {f : Fields} (h : ∀ d src, ¬HasPair f d src) : operandPair f = .error .operand := by
  cases hp : operandPair f with
  | ok p => exact absurd ((operandPair_ok f p).mp hp) (h p.1 p.2)
  | error e => rw [operandPair_error f e hp]

theorem branchOffset_of_bad {f : Fields} (h : ∀ k, ¬HasOffset f k) : branchOffset f = .error .operand := by
  cases hk : branchOffset f with
  | ok k => exact absurd ((branchOffset_ok f k).mp hk) (h k)
  | error e => rw [branchOffset_error f e hk]

section
variable {f : Fields} {s : State} {d src : Operand} (hpair : HasPair f d src) (hnext : NextInRange f s)
include hpair hnext

theorem conclude_advance_operandPair (rest : State → Operand × Operand → Except Abort State) :
    conclude s (do
      let s1 ← advance f.size s
      let p ← operandPair f
      rest s1 p) = conclude s (rest (pastInstr f s) (d, src)) := by
  rw [advance_of_next f s hnext, (operandPair_ok f (d, src)).mpr hpair]
  rfl

theorem execMov_completes (hd : accessible s f.flags.wide d = true) (hsrc : accessible s f.flags.wide src = true) :
    execMov f s = .next (storeOperand (pastInstr f s) f.flags.wide (operandValue s f.flags.wide src) d) := by
  obtain ⟨hdest, -, hfits, -⟩ := validPair_cases hpair.2.2
  rw [execMov, conclude_advance_operandPair hpair hnext, readOperand_of_accessible f hfits hsrc]
  show conclude s (writeOperand _ _ _ d) = _
  rw [writeOperand_of_accessible f _ hdest hd, conclude]

theorem execAlu_completes (a : AluOp) (hd : accessible s f.flags.wide d = true)
    (hsrc : accessible s f.flags.wide src = true) {r : Word}
    (hr : r = aluResult a (operandValue s f.flags.wide d) (operandValue s f.flags.wide src)) :
    execAlu a f s = .next (setFlags
      (if aluStores a then storeOperand (pastInstr f s) f.flags.wide r d else pastInstr f s) f.flags.wide r) := by
  obtain ⟨hdest, hdfits, hfits, -⟩ := validPair_cases hpair.2.2
  rw [execAlu, conclude_advance_operandPair hpair hnext, readOperand_of_accessible f hfits hsrc,
    readOperand_of_accessible f hdfits hd, destWide_of_fits hdfits]
  show conclude s (aluStore a _ _ (aluResult a _ _) d >>= _) = _
  rw [← hr, aluStore, writeOperand_of_accessible f _ hdest hd]
  split <;> rfl

variable {ea : EffectiveAddress} (hea : d = .memory ea ∨ src = .memory ea)
  (hout : inBounds (effectiveAddress s.regs ea) f.flags.wide = false)
include hea hout

theorem execMov_outOfBounds : execMov f s = .next (raise s (.bounds (effectiveAddress s.regs ea))) := by
  obtain ⟨-, -, hfits, -⟩ := validPair_cases hpair.2.2
  rw [execMov, conclude_advance_operandPair hpair hnext]
  rcases hea with rfl | rfl
  · rw [readOperand_of_accessible f hfits (accessible_source_of_memory s hpair.2.2)]
    show conclude s (writeOperand _ _ _ (.memory ea)) = _
    rw [writeOperand_of_outOfBounds f _ hout, conclude]
  · rw [readOperand_of_outOfBounds f hout]
    rfl

/-- Even `cmp` reads its destination. -/
theorem execAlu_outOfBounds (a : AluOp) : execAlu a f s = .next (raise s (.bounds (effectiveAddress s.regs ea))) := by
  obtain ⟨-, -, hfits, -⟩ := validPair_cases hpair.2.2
  rw [execAlu, conclude_advance_operandPair hpair hnext]
  rcases hea with rfl | rfl
  · rw [readOperand_of_accessible f hfits (accessible_source_of_memory s hpair.2.2), readOperand_of_outOfBounds f hout]
    rfl
  · rw [readOperand_of_outOfBounds f hout]
    rfl

end

/-! ### Jumps and loops -/

section
variable {op : OperationTag} {f : Fields} {k : Byte} {s : State} (hoffset : HasOffset f k) (hnext : NextInRange f s)
  (hwired : isWired s.wired op = true)
include hoffset hnext hwired

/-- A wired branch is decided by its predicate, which IP's advance does not touch. -/
theorem execBranch_of_wired : execBranch op f s = conclude s
    (if branchTaken s op then branchTo k (countDown op (pastInstr f s)) else .ok (countDown op (pastInstr f s))) := by
  have hrequire : requireWired op (pastInstr f s) = .ok () := if_pos hwired
  have htaken : branchTaken (pastInstr f s) op = branchTaken s op := by cases op <;> rfl
  rw [execBranch, Unwired.conclude_advance_branchOffset hoffset hnext, hrequire, ← htaken]
  rfl

theorem execBranch_targetOut (htaken : branchTaken s op = true) (hout : ¬TargetInRange f k s) :
    execBranch op f s = .next (raise s (.bounds (branchTarget f k s))) := by
  rw [execBranch_of_wired hoffset hnext hwired, if_pos htaken,
    branchTo_out_of_range f k s _ (countDown_ip op _) hnext hout, conclude]

theorem execBranch_taken (htaken : branchTaken s op = true) (hin : TargetInRange f k s) :
    execBranch op f s = .next { countDown op s with ip := BitVec.ofInt 16 (branchTarget f k s) } := by
  rw [execBranch_of_wired hoffset hnext hwired, if_pos htaken,
    branchTo_of_target f k s _ (countDown_ip op _) hnext hin, conclude]
  cases op <;> rfl

theorem execBranch_notTaken (htaken : branchTaken s op = false) :
    execBranch op f s = .next (pastInstr f (countDown op s)) := by
  rw [execBranch_of_wired hoffset hnext hwired, htaken]
  cases op <;> rfl

end

/-! ### The relation is `exec` -/

/-- An instruction that starts by moving IP raises when IP cannot move. -/
theorem conclude_advance_of_top {f : Fields} {s : State} (htop : ¬NextInRange f s) (rest : State → Except Abort State) :
    conclude s (advance f.size s >>= rest) = .next (raise s (.bounds ((s.ip.toNat + f.size : Nat) : Int))) := by
  rw [advance_of_top f s htop]
  rfl

/-- An instruction that checks its operands next raises when they are invalid. -/
theorem conclude_advance_of_operand {α : Type} {f : Fields} {s : State} {check : Except Abort α} (hnext : NextInRange f s)
    (hcheck : check = .error .operand) (rest : State → α → Except Abort State) :
    conclude s (advance f.size s >>= fun s1 => check >>= rest s1) = .next (raise s .operand) := by
  rw [advance_of_next f s hnext, hcheck]
  rfl

/-- The three families, for a statement that holds of all of them but `hlt`. -/
theorem exec_family (i : Instr) (s : State) (hop : i.operation ≠ .hlt) :
    (i.operation.format = .rel8 ∧ exec i s = execBranch i.operation i.fields s) ∨
      (IsPair i.operation ∧ (exec i s = execMov i.fields s ∨ ∃ a, exec i s = execAlu a i.fields s)) := by
  by_cases hrel : i.operation.format = .rel8
  · exact .inl ⟨hrel, exec_branch i s hrel⟩
  · refine .inr ⟨⟨hrel, hop⟩, ?_⟩
    cases halu : aluOpOf i.operation with
    | none => exact .inl (exec_mov i s ⟨hrel, hop⟩ halu)
    | some a => exact .inr ⟨a, exec_alu i s halu⟩

theorem exec_of_cause {i : Instr} {s : State} {e : Abort} (h : Cause i s e) : exec i s = .next (raise s e) := by
  cases h with
  | pastTop hop htop =>
    rcases exec_family i s hop with ⟨-, he⟩ | ⟨-, he | ⟨a, he⟩⟩ <;> rw [he] <;> exact conclude_advance_of_top htop _
  | badPair hop hnext hbad =>
    rcases exec_family i s hop.2 with ⟨hrel, -⟩ | ⟨-, he | ⟨a, he⟩⟩
    · exact absurd hrel hop.1
    all_goals rw [he]; exact conclude_advance_of_operand hnext (operandPair_of_bad hbad) _
  | outOfBounds hop hpair hnext hea hout =>
    rcases exec_family i s hop.2 with ⟨hrel, -⟩ | ⟨-, he | ⟨a, he⟩⟩
    · exact absurd hrel hop.1
    · rw [he, execMov_outOfBounds hpair hnext hea hout]
    · rw [he, execAlu_outOfBounds hpair hnext hea hout]
  | badOffset hop hnext hbad =>
    rw [exec_branch i s hop]
    exact conclude_advance_of_operand hnext (branchOffset_of_bad hbad) _
  | unwired hop hoffset hnext hwired => exact Unwired.unwiredOperationFaults i _ s hop hwired hoffset hnext
  | targetOut hoffset hnext hwired htaken hout =>
    rw [exec_branch i s (format_of_wired hwired), execBranch_targetOut hoffset hnext hwired htaken hout]

theorem exec_of_commit {i : Instr} {s t : State} (h : Commit i s t) : exec i s = .next t := by
  cases h with
  | moves hop halu hpair hnext hd hsrc => rw [exec_mov i s hop halu, execMov_completes hpair hnext hd hsrc]
  | computes halu hpair hnext hd hsrc hr => rw [exec_alu i s halu, execAlu_completes hpair hnext _ hd hsrc hr]
  | branches hoffset hnext hwired htaken hin =>
    rw [exec_branch i s (format_of_wired hwired), execBranch_taken hoffset hnext hwired htaken hin]
  | fallsThrough hoffset hnext hwired htaken =>
    rw [exec_branch i s (format_of_wired hwired), execBranch_notTaken hoffset hnext hwired htaken]

theorem exec_of_outcome {i : Instr} {s t : State} (h : Outcome i s t) : exec i s = .next t := by
  cases h with
  | halts hop => exact exec_hlt i s hop
  | raises hcause => exact exec_of_cause hcause
  | commits hcommit => exact exec_of_commit hcommit

/-- A two-operand instruction with IP in range ends in one of its cases. -/
theorem exists_outcome_of_pair {i : Instr} {s : State} (hop : IsPair i.operation) (hnext : NextInRange i.fields s) :
    ∃ t, Outcome i s t := by
  by_cases hpair : ∃ d src, HasPair i.fields d src
  · obtain ⟨d, src, hpair⟩ := hpair
    cases hd : accessible s i.fields.flags.wide d with
    | false =>
      obtain ⟨ea, hea, hout⟩ := memory_of_not_accessible hd
      exact ⟨_, .raises (.outOfBounds hop hpair hnext (.inl hea) hout)⟩
    | true =>
      cases hsrc : accessible s i.fields.flags.wide src with
      | false =>
        obtain ⟨ea, hea, hout⟩ := memory_of_not_accessible hsrc
        exact ⟨_, .raises (.outOfBounds hop hpair hnext (.inr hea) hout)⟩
      | true =>
        cases halu : aluOpOf i.operation with
        | none => exact ⟨_, .commits (.moves hop halu hpair hnext hd hsrc)⟩
        | some a => exact ⟨_, .commits (.computes halu hpair hnext hd hsrc rfl)⟩
  · exact ⟨_, .raises (.badPair hop hnext fun d src h => hpair ⟨d, src, h⟩)⟩

/-- A jump or loop with IP in range ends in one of its cases. -/
theorem exists_outcome_of_branch {i : Instr} {s : State} (hop : i.operation.format = .rel8)
    (hnext : NextInRange i.fields s) : ∃ t, Outcome i s t := by
  by_cases hoffset : ∃ k, HasOffset i.fields k
  · obtain ⟨k, hoffset⟩ := hoffset
    cases hwired : isWired s.wired i.operation with
    | false => exact ⟨_, .raises (.unwired hop hoffset hnext hwired)⟩
    | true =>
      cases htaken : branchTaken s i.operation with
      | false => exact ⟨_, .commits (.fallsThrough hoffset hnext hwired htaken)⟩
      | true =>
        by_cases hin : TargetInRange i.fields k s
        · exact ⟨_, .commits (.branches hoffset hnext hwired htaken hin)⟩
        · exact ⟨_, .raises (.targetOut hoffset hnext hwired htaken hin)⟩
  · exact ⟨_, .raises (.badOffset hop hnext fun k h => hoffset ⟨k, h⟩)⟩

theorem exists_outcome (i : Instr) (s : State) : ∃ t, Outcome i s t := by
  by_cases hop : i.operation = .hlt
  · exact ⟨_, .halts hop⟩
  by_cases hnext : NextInRange i.fields s
  · by_cases hrel : i.operation.format = .rel8
    · exact exists_outcome_of_branch hrel hnext
    · exact exists_outcome_of_pair ⟨hrel, hop⟩ hnext
  · exact ⟨_, .raises (.pastTop hop hnext)⟩

/-- Everything `exec` can answer: each outcome is what it answers, and there is always one. -/
theorem outcome_of_exec {i : Instr} {s t : State} (h : exec i s = .next t) : Outcome i s t := by
  obtain ⟨u, hu⟩ := exists_outcome i s
  rw [exec_of_outcome hu] at h
  cases h
  exact hu

/-! ### What all outcomes share -/

theorem commit_status {i : Instr} {s t : State} (h : Commit i s t) : t.status = s.status := by
  cases h with
  | moves => simp
  | computes => rw [setFlags_status]; split <;> simp
  | branches => simp
  | fallsThrough => simp

theorem commit_wired {i : Instr} {s t : State} (h : Commit i s t) : t.wired = s.wired := by
  cases h with
  | moves => simp
  | computes => rw [setFlags_wired]; split <;> simp
  | branches => simp
  | fallsThrough => simp

theorem cause_not_hlt {i : Instr} {s : State} {e : Abort} (h : Cause i s e) : i.operation ≠ .hlt := by
  have not_of_rel8 : i.operation.format = .rel8 → i.operation ≠ .hlt := fun hrel hop => by rw [hop] at hrel; cases hrel
  cases h with
  | pastTop hop => exact hop
  | badPair hop | outOfBounds hop => exact hop.2
  | badOffset hop | unwired hop => exact not_of_rel8 hop
  | targetOut _ _ hwired => exact not_of_rel8 (format_of_wired hwired)

theorem commit_not_hlt {i : Instr} {s t : State} (h : Commit i s t) : i.operation ≠ .hlt := by
  have not_of_wired : isWired s.wired i.operation = true → i.operation ≠ .hlt := fun hw hop => by rw [hop] at hw; cases hw
  cases h with
  | moves hop => exact hop.2
  | computes halu => exact (isPair_of_aluOp halu).2
  | branches _ _ hwired | fallsThrough _ _ hwired => exact not_of_wired hwired

theorem faulted_raise (s : State) (e : Abort) : Faulted (raise s e) := by
  cases e <;> simp [Faulted, abortStatus, statusCode]

end Sys2Proof.Proofs.Outcomes
end

section
/-! SUPPORT. What single instructions do (42_mov.md to 46_hlt.md): each statement is one or two of the outcomes. -/

namespace Sys2Proof.Proofs.Instructions

open Sys2Proof Sys2Proof.Machine Sys2Proof.Proofs.Outcomes

/-! ### Faults before the instruction is executed -/

/-- Settles O29: the first check that fails. -/
theorem advancePastTheTopFaults : Obligations.AdvancePastTheTopFaults := by
  rintro f s htop i rfl hop
  exact exec_of_cause (.pastTop hop htop)

/-- Settles O15: neither list of operands is one that the operations accept. -/
theorem invalidOperandsFault : Obligations.InvalidOperandsFault := by
  intro f s hnext
  refine ⟨fun hinvalid i hi => ?_, fun hbad i hi => ?_⟩
  · obtain ⟨rfl, hop⟩ : i.fields = f ∧ IsPair i.operation := by
      revert i; simp [Instr.fields, Instr.operation, IsPair, OperationTag.format]
    refine exec_of_cause (.badPair hop hnext ?_)
    rintro d src ⟨hd, hsrc, hvalid⟩
    obtain ⟨hdest, hdfits, hfits, hone⟩ := validPair_cases hvalid
    rcases hinvalid d src hd hsrc with h | ⟨k, rfl⟩ | h | h | h
    · exact Bool.false_ne_true (h.symm.trans hdest)
    · exact Bool.false_ne_true hfits
    · exact hone h
    · exact Bool.false_ne_true (h.symm.trans hdfits)
    · exact Bool.false_ne_true (h.symm.trans hfits)
  · obtain ⟨rfl, hop⟩ : i.fields = f ∧ i.operation.format = .rel8 := by
      revert i; simp [Instr.fields, Instr.operation, OperationTag.format]
    exact exec_of_cause (.badOffset hop hnext hbad)

/-! ### mov -/

/-- Settles O30: the commit of a `mov`, whose operands are a valid pair and accessible. -/
theorem movStoresSource : Obligations.MovStoresSource := by
  intro f s d src hpair hnext hd hsrc i hi
  obtain ⟨rfl, hop, halu⟩ : i.fields = f ∧ IsPair i.operation ∧ aluOpOf i.operation = none := by
    revert i; simp [Instr.fields, Instr.operation, IsPair, OperationTag.format, aluOpOf]
  exact exec_of_commit (.moves hop halu hpair hnext hd hsrc)

/-- Settles O32: the access that fails, whichever operand it is. -/
theorem movOutOfBoundsFaults : Obligations.MovOutOfBoundsFaults := by
  intro f s d src ea hpair hnext hea hout i hi
  obtain ⟨rfl, hop⟩ : i.fields = f ∧ IsPair i.operation := by
    revert i; simp [Instr.fields, Instr.operation, IsPair, OperationTag.format]
  exact exec_of_cause (.outOfBounds hop hpair hnext hea hout)

/-! ### add, sub, cmp -/

/-- R141's flags at either width: the result itself, or its low byte. -/
theorem setFlags_eq (s : State) (wide : Bool) (r : Word) : setFlags s wide r =
    { s with
      zf := if wide then r == 0 else loByte r == 0
      sf := if wide then r.msb else (loByte r).msb } := by
  cases wide with
  | true => simp [setFlags, zeroFlag, signFlag, truncated, BitVec.msb_eq_getLsbD_last]
  | false =>
    have hzero : (zextByte (loByte r) == 0) = (loByte r == 0) := by
      generalize loByte r = b
      revert b; decide
    have hsign : r.getLsbD 7 = (loByte r).msb := by simp [BitVec.msb_eq_getLsbD_last, loByte]
    simp only [setFlags, zeroFlag, signFlag, truncated, Bool.false_eq_true, if_false, hzero, hsign]

/-- Settles O33: the commit of an `add`, with the flags read off its result. -/
theorem addStoresSumAndFlags : Obligations.AddStoresSumAndFlags := by
  intro f s d src hpair hnext hd hsrc i hi r hr
  obtain ⟨rfl, halu⟩ : i.fields = f ∧ aluOpOf i.operation = some .add := by
    revert i; simp [Instr.fields, Instr.operation, aluOpOf]
  rw [exec_of_commit (.computes halu hpair hnext hd hsrc hr), setFlags_eq]
  rfl

/-- Settles O34: the commit of a `sub`, with the flags read off its result. -/
theorem subStoresDifferenceAndFlags : Obligations.SubStoresDifferenceAndFlags := by
  intro f s d src hpair hnext hd hsrc i hi r hr
  obtain ⟨rfl, halu⟩ : i.fields = f ∧ aluOpOf i.operation = some .sub := by
    revert i; simp [Instr.fields, Instr.operation, aluOpOf]
  rw [exec_of_commit (.computes halu hpair hnext hd hsrc hr), setFlags_eq]
  rfl

/-- Settles O35: the commit of a `cmp`, which stores nothing. -/
theorem cmpWritesFlagsOnly : Obligations.CmpWritesFlagsOnly := by
  intro f s d src hpair hnext hd hsrc i hi r hr
  obtain ⟨rfl, halu⟩ : i.fields = f ∧ aluOpOf i.operation = some .cmp := by
    revert i; simp [Instr.fields, Instr.operation, aluOpOf]
  rw [exec_of_commit (.computes halu hpair hnext hd hsrc hr), setFlags_eq]
  rfl

/-- Settles O38: all three operations read both operands, so the access fails before anything is stored. -/
theorem arithOutOfBoundsFaults : Obligations.ArithOutOfBoundsFaults := by
  intro f s d src ea hpair hnext hea hout i hi
  obtain ⟨rfl, hop⟩ : i.fields = f ∧ IsPair i.operation := by
    revert i; simp [Instr.fields, Instr.operation, IsPair, OperationTag.format]
  exact exec_of_cause (.outOfBounds hop hpair hnext hea hout)

/-- Settles O39: at 16 bits the machine's own arithmetic, at 8 bits the low byte, whose residue modulo 256 the operands'
residues determine. -/
theorem arithmeticIsModuloTheWidth : Obligations.ArithmeticIsModuloTheWidth := by
  intro d s
  have hadd : (aluResult .add d s).toNat = (d.toNat + s.toNat) % 65536 := BitVec.toNat_add d s
  have hsub : (aluResult .sub d s).toNat = (d.toNat + 65536 - s.toNat) % 65536 := by
    rw [aluResult, BitVec.toNat_sub]; omega
  have htruncated (r : Word) : (truncated false r).toNat = r.toNat % 256 := by
    rw [truncated, if_neg Bool.false_ne_true, RegisterAccess.toNat_zextByte, RegisterAccess.toNat_loByte]
  refine ⟨hadd, hsub, rfl, ?_, ?_⟩
  · rw [htruncated, hadd]; omega
  · rw [htruncated, hsub]; omega

/-! ### Jumps -/

/-- The counter reaches zero from 1 only. -/
theorem decremented_eq_zero (cx : Word) : cx - 1#16 = 0#16 ↔ cx = 1#16 := by
  constructor <;> intro h <;> bv_omega

section
variable {f : Fields} {k : Byte} {s : State} (hoffset : HasOffset f k) (hnext : NextInRange f s)
include hoffset hnext

theorem exec_taken (hin : TargetInRange f k s) (i : Instr) (hf : i.fields = f) (hw : isWired s.wired i.operation = true)
    (htaken : branchTaken s i.operation = true) :
    exec i s = .next { countDown i.operation s with ip := BitVec.ofInt 16 (branchTarget f k s) } := by
  subst hf
  exact exec_of_commit (.branches hoffset hnext hw htaken hin)

theorem exec_notTaken (i : Instr) (hf : i.fields = f) (hw : isWired s.wired i.operation = true)
    (htaken : branchTaken s i.operation = false) : exec i s = .next (pastInstr f (countDown i.operation s)) := by
  subst hf
  exact exec_of_commit (.fallsThrough hoffset hnext hw htaken)

theorem exec_targetOut (hout : ¬TargetInRange f k s) (i : Instr) (hf : i.fields = f)
    (hw : isWired s.wired i.operation = true) (htaken : branchTaken s i.operation = true) :
    exec i s = .next { s with status := .faultBounds (branchTarget f k s) } := by
  subst hf
  exact exec_of_cause (.targetOut hoffset hnext hw htaken hout)

theorem exec_neverWired (i : Instr) (hf : i.fields = f) (hop : i.operation.format = .rel8)
    (hw : isWired s.wired i.operation = false) : exec i s = .next { s with status := .faultUnimplemented i.operation } := by
  subst hf
  exact exec_of_cause (.unwired hop hoffset hnext hw)

end

/-- Settles O40: each predicate is the operation's `branchTaken`. -/
theorem wiredJumpTaken : Obligations.WiredJumpTaken := by
  rintro f k s hoffset hnext hin t rfl
  have taken := exec_taken hoffset hnext hin
  refine ⟨fun hw hp => taken (.je f) rfl hw hp, fun hw hp => taken (.jne f) rfl hw ?_, fun hw hp => taken (.js f) rfl hw hp,
    fun hw hp => taken (.jns f) rfl hw ?_, fun hw hp => taken (.jcxz f) rfl hw ?_⟩
  all_goals simp [branchTaken, Instr.operation, hp]

/-- Settles O41: the predicate fails, so the target is not looked at. -/
theorem wiredJumpNotTaken : Obligations.WiredJumpNotTaken := by
  rintro f k s hoffset hnext t rfl
  have notTaken := exec_notTaken hoffset hnext
  refine ⟨fun hw hp => notTaken (.je f) rfl hw hp, fun hw hp => notTaken (.jne f) rfl hw ?_,
    fun hw hp => notTaken (.js f) rfl hw hp, fun hw hp => notTaken (.jns f) rfl hw ?_,
    fun hw hp => notTaken (.jcxz f) rfl hw ?_⟩
  all_goals simpa [branchTaken, Instr.operation] using hp

/-- Settles O42: the five jumps when their predicate holds, and the loops when the counter does not reach zero. -/
theorem branchOutOfBoundsFaults : Obligations.BranchOutOfBoundsFaults := by
  rintro f k s hoffset hnext hout t rfl
  have targetOut := exec_targetOut hoffset hnext hout
  refine ⟨fun hw hp => targetOut (.je f) rfl hw hp, fun hw hp => targetOut (.jne f) rfl hw ?_,
    fun hw hp => targetOut (.js f) rfl hw hp, fun hw hp => targetOut (.jns f) rfl hw ?_,
    fun hw hp => targetOut (.jcxz f) rfl hw ?_, fun hcx => targetOut (.loop f) rfl rfl ?_,
    fun hw hcx hp => targetOut (.loopz f) rfl hw ?_, fun hw hcx hp => targetOut (.loopnz f) rfl hw ?_⟩
  all_goals simp_all [branchTaken, Instr.operation, decremented_eq_zero]

/-- Settles O44: no WIRED holds any of the twelve. -/
theorem neverWiredJumpsFault : Obligations.NeverWiredJumpsFault := by
  intro f k s hoffset hnext
  have fault := exec_neverWired hoffset hnext
  exact ⟨fault (.jo f) rfl rfl rfl, fault (.jno f) rfl rfl rfl, fault (.jb f) rfl rfl rfl, fault (.jnb f) rfl rfl rfl,
    fault (.jbe f) rfl rfl rfl, fault (.ja f) rfl rfl rfl, fault (.jp f) rfl rfl rfl, fault (.jnp f) rfl rfl rfl,
    fault (.jl f) rfl rfl rfl, fault (.jnl f) rfl rfl rfl, fault (.jle f) rfl rfl rfl, fault (.jg f) rfl rfl rfl⟩

/-! ### Loops -/

/-- Settles O46: the counter is not 1, so it does not reach zero. -/
theorem loopBranches : Obligations.LoopBranches := by
  rintro f k s hoffset hnext hin hcx t rfl
  have taken := exec_taken hoffset hnext hin
  refine ⟨taken (.loop f) rfl rfl ?_, fun hw hz => taken (.loopz f) rfl hw ?_, fun hw hz => taken (.loopnz f) rfl hw ?_⟩
  all_goals simp_all [branchTaken, Instr.operation, decremented_eq_zero]

/-- Settles O47: the counter is 1, or the condition on ZF fails. -/
theorem loopFallsThrough : Obligations.LoopFallsThrough := by
  rintro f k s hoffset hnext t rfl
  have notTaken := exec_notTaken hoffset hnext
  refine ⟨fun hcx => notTaken (.loop f) rfl rfl ?_, fun hw h => notTaken (.loopz f) rfl hw ?_,
    fun hw h => notTaken (.loopnz f) rfl hw ?_⟩
  case refine_1 => simp [branchTaken, Instr.operation, hcx]
  all_goals rcases h with h | h <;> simp [branchTaken, Instr.operation, h]

/-- Settles O49: the one instruction that does not move IP. -/
theorem hltHalts : Obligations.HltHalts :=
  fun f s => exec_hlt (.hlt f) s rfl

end Sys2Proof.Proofs.Instructions
end

section
/-! SUPPORT. What instructions leave unchanged (42_mov.md to 45_loops.md, "what it leaves unchanged"). -/

namespace Sys2Proof.Proofs.Frames

open Sys2Proof Sys2Proof.Machine Sys2Proof.Proofs.Outcomes

/-! ### Outside the destination -/

/-- Everything but the destination of a record is as in `s`: the other cells, the other byte of a byte destination, and the
bytes of memory that the destination does not touch. -/
def KeepsOutside (f : Fields) (s t : State) : Prop :=
  (∀ c, (∀ a, f.dst ≠ some (.register c a)) → readCell t.regs c = readCell s.regs c) ∧
  (∀ c, f.dst = some (.register c .low) → hiByte (readCell t.regs c) = hiByte (readCell s.regs c)) ∧
  (∀ c, f.dst = some (.register c .high) → loByte (readCell t.regs c) = loByte (readCell s.regs c)) ∧
  (∀ a, (∀ d, f.dst = some d → ¬Touches s f.flags.wide d a) → readByte t.mem a = readByte s.mem a)

theorem keepsOutside_of_same {f : Fields} {s t : State} (hregs : t.regs = s.regs) (hmem : t.mem = s.mem) :
    KeepsOutside f s t := by
  unfold KeepsOutside
  rw [hregs, hmem]
  exact ⟨fun _ _ => rfl, fun _ _ => rfl, fun _ _ => rfl, fun _ _ => rfl⟩

theorem keepsOutside_storeOperand {f : Fields} {s : State} {d : Operand} (v : Word) (hdst : f.dst = some d)
    (hacc : accessible s f.flags.wide d = true) :
    KeepsOutside f s (storeOperand (pastInstr f s) f.flags.wide v d) := by
  refine ⟨fun c hc => ?cells, fun c hc => ?high, fun c hc => ?low, fun a ha => ?bytes⟩
  case cells => exact readCell_storeOperand (pastInstr f s) _ v d c fun a hd => hc a (hdst.trans (congrArg some hd))
  case high =>
    obtain rfl : d = .register c .low := Option.some.inj (hdst.symm.trans hc)
    rw [storeRegister_regs, readCell_regWrite_same, pastInstr_regs, hiByte_wordOf]
  case low =>
    obtain rfl : d = .register c .high := Option.some.inj (hdst.symm.trans hc)
    rw [storeRegister_regs, readCell_regWrite_same, pastInstr_regs, loByte_wordOf]
  case bytes =>
    have htouches : ¬Touches (pastInstr f s) f.flags.wide d a := by
      have := ha d hdst
      cases d <;> exact this
    rw [readByte_storeOperand _ _ _ _ _ ((accessible_pastInstr f s _ d).trans hacc) htouches, pastInstr_mem]

/-- Settles O31: a `mov` raises, or it stores through its destination. -/
theorem movFrame : Obligations.MovFrame := by
  intro f s t i hi h
  obtain ⟨rfl, hop, halu⟩ : i.fields = f ∧ IsPair i.operation ∧ aluOpOf i.operation = none := by
    revert i; simp [Instr.fields, Instr.operation, IsPair, OperationTag.format, aluOpOf]
  rw [exec_mov i s hop halu] at h
  obtain ⟨e, rfl⟩ | ⟨d, src, ⟨hdst, -, -⟩, -, hacc, -, rfl⟩ := execMov_cases h
  · exact ⟨rfl, rfl, rfl, .inr (faulted_raise s e), keepsOutside_of_same rfl rfl⟩
  · exact ⟨by simp, by simp, by simp, .inl (by simp), keepsOutside_storeOperand _ hdst hacc⟩

/-- Settles O36: `add` and `sub` raise, or they store through their destination and set the flags. -/
theorem addSubFrame : Obligations.AddSubFrame := by
  intro f s t i hi h
  obtain ⟨rfl, a, halu, hstores⟩ : i.fields = f ∧ ∃ a, aluOpOf i.operation = some a ∧ aluStores a = true := by
    revert i; simp [Instr.fields, Instr.operation, aluOpOf, aluStores]
  rw [exec_alu i s halu] at h
  obtain ⟨e, rfl⟩ | ⟨d, src, r, ⟨hdst, -, -⟩, -, hacc, -, -, rfl⟩ := execAlu_cases h
  · exact ⟨rfl, .inr (faulted_raise s e), keepsOutside_of_same rfl rfl⟩
  · rw [if_pos hstores]
    exact ⟨by simp, .inl (by simp), keepsOutside_storeOperand _ hdst hacc⟩

/-- Settles O37: `cmp` raises, or it sets the flags. -/
theorem cmpFrame : Obligations.CmpFrame := by
  intro f s t i hi h
  obtain ⟨rfl, halu⟩ : i.fields = f ∧ aluOpOf i.operation = some .cmp := by
    revert i; simp [Instr.fields, Instr.operation, aluOpOf]
  rw [exec_alu i s halu] at h
  obtain ⟨e, rfl⟩ | ⟨d, src, r, -, -, -, -, -, rfl⟩ := execAlu_cases h
  · exact ⟨rfl, rfl, rfl, .inr (faulted_raise s e)⟩
  · exact ⟨rfl, rfl, rfl, .inl rfl⟩

/-! ### Jumps and loops -/

/-- A jump or loop changes nothing but IP and, for a loop, the counter; or it raises. -/
theorem branch_frame {i : Instr} {s t : State} (hrel : i.operation.format = .rel8) (h : exec i s = .next t) :
    (t.regs = s.regs ∨ t.regs = (countDown i.operation s).regs) ∧ t.mem = s.mem ∧ t.zf = s.zf ∧ t.sf = s.sf ∧
      t.wired = s.wired ∧ (t.status = s.status ∨ Faulted t) := by
  cases outcome_of_exec h with
  | halts hop => rw [hop] at hrel; cases hrel
  | @raises e => exact ⟨.inl rfl, rfl, rfl, rfl, rfl, .inr (faulted_raise s e)⟩
  | commits hcommit =>
    cases hcommit with
    | moves hop => exact absurd hrel hop.1
    | computes halu => exact absurd hrel (isPair_of_aluOp halu).1
    | branches | fallsThrough => simp

/-- Settles O45: no jump counts. -/
theorem jumpFrame : Obligations.JumpFrame := by
  intro f s t i hi h
  obtain ⟨hrel, hcount⟩ : i.operation.format = .rel8 ∧ countDown i.operation s = s := by
    clear h; revert i; simp [Instr.operation, OperationTag.format, countDown]
  obtain ⟨hregs, hrest⟩ := branch_frame hrel h
  rw [hcount, or_self] at hregs
  exact ⟨hregs, hrest⟩

/-- Settles O48: the counter is the one cell that a decrement writes. -/
theorem loopFrame : Obligations.LoopFrame := by
  intro f s t i hi h
  obtain ⟨hrel, hcount⟩ : i.operation.format = .rel8 ∧ countDown i.operation s = decrementCx s := by
    clear h; revert i; simp [Instr.operation, OperationTag.format, countDown]
  obtain ⟨hregs, hrest⟩ := branch_frame hrel h
  refine ⟨fun c hc => ?_, hrest⟩
  rcases hregs with hregs | hregs
  · rw [hregs]
  · rw [hregs, hcount, decrementCx_regs, readCell_writeCell_other _ _ hc]

/-- Settles O27: the outcomes that set flags are those of an arithmetic operation. -/
theorem onlyArithmeticWritesFlags : Obligations.OnlyArithmeticWritesFlags := by
  intro i s t halu h
  cases outcome_of_exec h with
  | halts | raises => exact ⟨rfl, rfl⟩
  | commits hcommit =>
    cases hcommit with
    | moves | branches | fallsThrough => simp
    | computes halu' => cases halu.symm.trans halu'

end Sys2Proof.Proofs.Frames
end

section
/-! SUPPORT. The step (41_cycle.md): everything it can do, and that a stopped machine stays as it is. -/

namespace Sys2Proof.Proofs.Steps

open Sys2Proof Sys2Proof.Machine Sys2Proof.Proofs.Outcomes

/-! ### The three kinds of step -/

theorem step_of_stopped {s : State} (h : s.status ≠ .running) : step s = .next s :=
  if_neg h

theorem step_of_undecodable {s : State} (h : s.status = .running) (hnone : fetchDecode s = none) :
    step s = .next (stopUndecodable s) := by
  rw [step, if_pos h, hnone]

theorem step_of_decoded {s : State} {i : Instr} (h : s.status = .running) (hi : fetchDecode s = some i) :
    step s = exec i s := by
  rw [step, if_pos h, hi]

/-- Everything a step can do. -/
theorem step_cases {s t : State} (h : step s = .next t) :
    (s.status ≠ .running ∧ t = s) ∨
    (s.status = .running ∧ fetchDecode s = none ∧ t = stopUndecodable s) ∨
    ∃ i, s.status = .running ∧ fetchDecode s = some i ∧ Outcome i s t := by
  by_cases hs : s.status = .running
  · cases hi : fetchDecode s with
    | none =>
      rw [step_of_undecodable hs hi] at h
      cases h
      exact .inr (.inl ⟨hs, rfl, rfl⟩)
    | some i =>
      rw [step_of_decoded hs hi] at h
      exact .inr (.inr ⟨i, hs, rfl, outcome_of_exec h⟩)
  · rw [step_of_stopped hs] at h
    cases h
    exact .inl ⟨hs, rfl⟩

/-- Settles O17: the running and decoded kind of step. -/
theorem stepRunsDecodedInstruction : Obligations.StepRunsDecodedInstruction :=
  fun _ _ => step_of_decoded

/-- Settles O18: the other two kinds. -/
theorem stepOfStoppedOrUndecodable : Obligations.StepOfStoppedOrUndecodable :=
  fun _ => ⟨step_of_stopped, step_of_undecodable⟩

/-- Settles O19: some outcome always applies, and the other two kinds of step answer outright. -/
theorem everyStepAnswers : Obligations.EveryStepAnswers := by
  have hexec (i : Instr) (s : State) : ∃ t, exec i s = .next t :=
    (exists_outcome i s).imp fun _ => exec_of_outcome
  refine ⟨hexec, fun s => ?_⟩
  by_cases hs : s.status = .running
  · cases hi : fetchDecode s with
    | none => exact ⟨_, step_of_undecodable hs hi⟩
    | some i => exact step_of_decoded hs hi ▸ hexec i s
  · exact ⟨s, step_of_stopped hs⟩

/-! ### Stopping -/

/-- Settles O20: a stop is a halt, a decode failure or a raise; a committed instruction leaves the machine running. -/
theorem stopsCommitOnlyStatus : Obligations.StopsCommitOnlyStatus := by
  intro s t h hstop
  obtain ⟨-, rfl⟩ | ⟨-, -, rfl⟩ | ⟨i, hs, -, houtcome⟩ := step_cases h
  · rfl
  · rfl
  · cases houtcome with
    | halts | raises => rfl
    | commits hcommit => exact absurd ((commit_status hcommit).trans hs) hstop

theorem stepState_of_step {s t : State} (h : step s = .next t) : stepState s = t := by
  rw [stepState, h]

/-- Settles O50: by induction on the number of steps, each of which leaves the machine as it is. -/
theorem stoppedMachineNeverMoves : Obligations.StoppedMachineNeverMoves := by
  intro n s hs
  induction n with
  | zero => rfl
  | succ n ih => rw [runFor, stepState_of_step (step_of_stopped hs), ih]

/-- The first byte of the window is the byte at IP. -/
theorem fetchWindow_eq_cons (s : State) : ∃ rest, fetchWindow s = readByte s.mem s.ip.toNat :: rest := by
  have hfirst := Decoder.getElem?_fetchWindow s 0
  rw [if_pos ⟨by decide, by omega⟩, Nat.add_zero] at hfirst
  cases hw : fetchWindow s with
  | nil => rw [hw] at hfirst; cases hfirst
  | cons b rest =>
    rw [hw] at hfirst
    exact ⟨rest, by rw [Option.some.inj hfirst]⟩

/-- Settles O54: the byte decodes as `hlt` whatever follows it. -/
theorem sentinelHalts : Obligations.SentinelHalts := by
  intro s hs hbyte
  obtain ⟨rest, hw⟩ := fetchWindow_eq_cons s
  have hdecode : fetchDecode s = some (.hlt ⟨none, none, ⟨false, false, false⟩, 1⟩) := by
    rw [fetchDecode, hw, hbyte]
    exact Encoding.decode_encodeFields .hlt rest
  rw [step_of_decoded hs hdecode]
  exact exec_hlt _ s rfl

end Sys2Proof.Proofs.Steps
end

section
/-! SUPPORT. The parameter WIRED (10_state.md section 7, 44_jumps.md section 1): nothing writes it, and an instruction
asks only for its own operation's bit. -/

namespace Sys2Proof.Proofs.Wiring

open Sys2Proof Sys2Proof.Machine Sys2Proof.Proofs.Outcomes Sys2Proof.Proofs.Steps

/-- Settles O25: no outcome writes it, and both loads keep it. -/
theorem wiredIsNeverWritten : Obligations.WiredIsNeverWritten := by
  refine ⟨fun s t h => ?_, fun s program => ?_⟩
  · obtain ⟨-, rfl⟩ | ⟨-, -, rfl⟩ | ⟨i, -, -, houtcome⟩ := step_cases h
    · rfl
    · rfl
    · cases houtcome with
      | halts | raises => rfl
      | commits hcommit => exact commit_wired hcommit
  · unfold load
    split <;> rfl

/-- A machine with another choice of WIRED. -/
def rewire (w : Wired) (s : State) : State := { s with wired := w }

theorem accessible_rewire (w : Wired) (s : State) (wide : Bool) (o : Operand) :
    accessible (rewire w s) wide o = accessible s wide o := by cases o <;> rfl

theorem operandValue_rewire (w : Wired) (s : State) (wide : Bool) (o : Operand) :
    operandValue (rewire w s) wide o = operandValue s wide o := by cases o <;> rfl

theorem branchTaken_rewire (w : Wired) (s : State) (op : OperationTag) :
    branchTaken (rewire w s) op = branchTaken s op := by cases op <;> rfl

theorem pastInstr_rewire (w : Wired) (f : Fields) (s : State) : pastInstr f (rewire w s) = rewire w (pastInstr f s) := rfl

theorem storeOperand_rewire (w : Wired) (s : State) (wide : Bool) (v : Word) (o : Operand) :
    storeOperand (rewire w s) wide v o = rewire w (storeOperand s wide v o) := by cases o <;> rfl

theorem setFlags_rewire (w : Wired) (s : State) (wide : Bool) (r : Word) :
    setFlags (rewire w s) wide r = rewire w (setFlags s wide r) := rfl

theorem countDown_rewire (w : Wired) (s : State) (op : OperationTag) :
    countDown op (rewire w s) = rewire w (countDown op s) := by cases op <;> rfl

section
variable {i : Instr} {s : State} {w : Wired} (hw : isWired w i.operation = isWired s.wired i.operation)
include hw

theorem cause_rewire {e : Abort} (h : Cause i s e) : Cause i (rewire w s) e := by
  cases h with
  | pastTop hop htop => exact .pastTop hop htop
  | badPair hop hnext hbad => exact .badPair hop hnext hbad
  | outOfBounds hop hpair hnext hea hout => exact .outOfBounds (s := rewire w s) hop hpair hnext hea hout
  | badOffset hop hnext hbad => exact .badOffset hop hnext hbad
  | unwired hop hoffset hnext hwired => exact .unwired hop hoffset hnext (hw.trans hwired)
  | targetOut hoffset hnext hwired htaken hout =>
    exact .targetOut (s := rewire w s) hoffset hnext (hw.trans hwired) ((branchTaken_rewire w s _).trans htaken) hout

theorem commit_rewire {t : State} (h : Commit i s t) : Commit i (rewire w s) (rewire w t) := by
  cases h with
  | moves hop halu hpair hnext hd hsrc =>
    have h := Commit.moves (s := rewire w s) hop halu hpair hnext ((accessible_rewire ..).trans hd)
      ((accessible_rewire ..).trans hsrc)
    rwa [operandValue_rewire, pastInstr_rewire, storeOperand_rewire] at h
  | computes halu hpair hnext hd hsrc hr =>
    have h := Commit.computes (s := rewire w s) halu hpair hnext ((accessible_rewire ..).trans hd)
      ((accessible_rewire ..).trans hsrc) rfl
    rwa [operandValue_rewire, operandValue_rewire, ← hr, pastInstr_rewire, storeOperand_rewire, ← apply_ite (rewire w),
      setFlags_rewire] at h
  | branches hoffset hnext hwired htaken hin =>
    have h := Commit.branches (s := rewire w s) hoffset hnext (hw.trans hwired) ((branchTaken_rewire ..).trans htaken) hin
    rwa [countDown_rewire] at h
  | fallsThrough hoffset hnext hwired htaken =>
    have h := Commit.fallsThrough (s := rewire w s) hoffset hnext (hw.trans hwired) ((branchTaken_rewire ..).trans htaken)
    rwa [countDown_rewire] at h

end

/-- Settles O26: the outcome in the one machine is the outcome in the other, for only the operation's own bit is asked. -/
theorem onlyTheOperationsWiringMatters : Obligations.OnlyTheOperationsWiringMatters := by
  intro i s t w hw h
  have houtcome : Outcome i (rewire w s) (rewire w t) := by
    cases outcome_of_exec h with
    | halts hop => exact .halts hop
    | raises hcause => exact .raises (cause_rewire hw hcause)
    | commits hcommit => exact .commits (commit_rewire hw hcommit)
  exact exec_of_outcome houtcome

end Sys2Proof.Proofs.Wiring
end

section
/-! SUPPORT. What every step keeps: the canonical memory and the flags that exclude each other (43_arith.md section 1),
and an IP that never wraps (10_state.md section 2). -/

namespace Sys2Proof.Proofs.Invariants

open Sys2Proof Sys2Proof.Machine Sys2Proof.Proofs.Outcomes Sys2Proof.Proofs.Steps

/-! ### The invariant -/

/-- The top bit of zero is clear (43_arith.md R152). -/
theorem not_zeroFlag_and_signFlag (wide : Bool) (r : Word) : ¬(zeroFlag wide r = true ∧ signFlag wide r = true) := by
  rintro ⟨hzero, hsign⟩
  cases wide with
  | true =>
    obtain rfl : r = 0 := by simpa [zeroFlag, truncated] using hzero
    cases hsign
  | false =>
    have hlow : loByte r = 0 := by
      rw [← loByte_zextByte (loByte r), show zextByte (loByte r) = 0 by simpa [zeroFlag, truncated] using hzero]
      rfl
    have hbit : signFlag false r = (loByte r).getLsbD 7 := by simp [signFlag, loByte]
    rw [hbit, hlow] at hsign
    cases hsign

/-- A commit keeps the invariant: stores are in bounds, and flags come in pairs. -/
theorem commit_keeps_inv {i : Instr} {s t : State} (hinv : Inv s) (h : Commit i s t) : Inv t := by
  obtain ⟨hmem, hflags⟩ := hinv
  have hstored (d : Operand) (v : Word) (hd : accessible s i.fields.flags.wide d = true) :
      Memory.wf (storeOperand (pastInstr i.fields s) i.fields.flags.wide v d).mem = true :=
    wf_storeOperand _ _ v d ((accessible_pastInstr ..).trans hd) hmem
  cases h with
  | moves _ _ _ _ hd => exact ⟨hstored _ _ hd, by simpa using hflags⟩
  | @computes a _ _ r _ _ _ hd =>
    refine ⟨?_, not_zeroFlag_and_signFlag _ r⟩
    rw [setFlags_mem]
    split
    · exact hstored _ r hd
    · exact hmem
  | branches | fallsThrough => exact ⟨by simpa using hmem, by simpa using hflags⟩

/-- Settles O22: a step that commits nothing but STATUS keeps memory and the flags, and a commit keeps the invariant. -/
theorem stepKeepsInvariant : Obligations.StepKeepsInvariant := by
  intro s t hinv h
  obtain ⟨-, rfl⟩ | ⟨-, -, rfl⟩ | ⟨i, -, -, houtcome⟩ := step_cases h
  · exact hinv
  · exact hinv
  · cases houtcome with
    | halts | raises => exact hinv
    | commits hcommit => exact commit_keeps_inv hinv hcommit

/-! ### IP -/

theorem toNat_ofNat_of_le {n : Nat} (h : n ≤ 65535) : (BitVec.ofNat 16 n).toNat = n := by
  rw [BitVec.toNat_ofNat]; omega

theorem toNat_ofInt_of_range {z : Int} (h : 0 ≤ z ∧ z ≤ 65535) : ((BitVec.ofInt 16 z).toNat : Int) = z := by
  rw [BitVec.toNat_ofInt]; omega

/-- A commit moves IP past the instruction, or to the target of its label. -/
theorem commit_ip {i : Instr} {s t : State} (h : Commit i s t) :
    t.ip.toNat = s.ip.toNat + i.size ∨ ∃ k, HasOffset i.fields k ∧ (t.ip.toNat : Int) = branchTarget i.fields k s := by
  cases h with
  | moves _ _ _ hnext => exact .inl (by rw [storeOperand_ip]; exact toNat_ofNat_of_le hnext)
  | computes _ _ hnext =>
    refine .inl ?_
    rw [setFlags_ip]
    split
    · rw [storeOperand_ip]; exact toNat_ofNat_of_le hnext
    · exact toNat_ofNat_of_le hnext
  | @branches k hoffset _ _ _ hin => exact .inr ⟨k, hoffset, toNat_ofInt_of_range hin⟩
  | fallsThrough _ hnext => exact .inl (by rw [pastInstr_ip, countDown_ip]; exact toNat_ofNat_of_le hnext)

/-- Settles O28: a step that leaves the machine running is a commit. -/
theorem ipAdvancesOrBranches : Obligations.IpAdvancesOrBranches := by
  intro s t hs h ht
  obtain ⟨hstopped, -⟩ | ⟨-, -, rfl⟩ | ⟨i, -, hi, houtcome⟩ := step_cases h
  · exact absurd hs hstopped
  · cases ht
  · refine ⟨i, hi, ?_⟩
    cases houtcome with
    | halts => cases ht
    | @raises e => cases e <;> cases ht
    | commits hcommit => exact commit_ip hcommit

end Sys2Proof.Proofs.Invariants
end

section
/-! SUPPORT. Why a step stops the machine (60_exceptions.md sections 1 and 2): decoded records always have the operands
that their operation asks for, and each other fault has its cause. -/

namespace Sys2Proof.Proofs.Causes

open Sys2Proof Sys2Proof.Machine Sys2Proof.Proofs.Outcomes Sys2Proof.Proofs.Encoding Sys2Proof.Proofs.Steps

/-! ### The operands of a decoded record -/

theorem fits_of_wfRegister {w : Bool} {r : Operand} (h : wfRegister w r = true) :
    operandFits w r = true ∧ isDestination r = true ∧ isMemory r = false := by
  cases r with
  | register c a => exact ⟨h, rfl, rfl⟩
  | memory | immediateData | labelOffset => cases h

theorem fits_of_wfRm {w : Bool} {nd : Nat} {m : Operand} (h : wfRm w nd m = true) :
    operandFits w m = true ∧ isDestination m = true := by
  cases m with
  | register c a => exact ⟨((Bool.and_eq_true _ _).mp h).1, rfl⟩
  | memory ea => exact ⟨rfl, rfl⟩
  | immediateData | labelOffset => cases h

theorem fits_of_wfImmediate {w sext : Bool} {v : Word} (h : wfImmediate w sext (.immediateData v) = true) :
    operandFits w (.immediateData v) = true := by
  cases w with
  | true => rfl
  | false =>
    have hv : v = zextByte (loByte v) := by simpa [wfImmediate] using h
    rw [hv]
    simp [operandFits]

theorem fits_accumulator (w : Bool) :
    operandFits w (accumulator w) = true ∧ isDestination (accumulator w) = true ∧ isMemory (accumulator w) = false := by
  cases w <;> exact ⟨rfl, rfl, rfl⟩

theorem validPair_of_fits {w : Bool} {d src : Operand} (hdest : isDestination d = true) (hd : operandFits w d = true)
    (hsrc : operandFits w src = true) (hone : isMemory d = false ∨ isMemory src = false) : validPair w d src = true := by
  rcases hone with hone | hone <;> simp [validPair, hdest, hd, hsrc, hone]

/-- No shape of a two-operand record is one that R101 lists. -/
theorem hasPair_of_shape {tag : OperationTag} {f : Fields} (h : Shape tag f) (hop : IsPair tag) :
    ∃ d src, HasPair f d src := by
  cases h with
  | @rmReg _ w dir r m nd _ hr hm =>
    obtain ⟨hrfits, hrdest, hrmem⟩ := fits_of_wfRegister hr
    obtain ⟨hmfits, hmdest⟩ := fits_of_wfRm hm
    cases dir with
    | false => exact ⟨m, r, rfl, rfl, validPair_of_fits hmdest hmfits hrfits (.inr hrmem)⟩
    | true => exact ⟨r, m, rfl, rfl, validPair_of_fits hrdest hrfits hmfits (.inl hrmem)⟩
  | immRm _ hm hv | movImmRm hm hv =>
    obtain ⟨hmfits, hmdest⟩ := fits_of_wfRm hm
    exact ⟨_, _, rfl, rfl, validPair_of_fits hmdest hmfits (fits_of_wfImmediate hv) (.inr rfl)⟩
  | immReg hr hv =>
    obtain ⟨hrfits, hrdest, hrmem⟩ := fits_of_wfRegister hr
    exact ⟨_, _, rfl, rfl, validPair_of_fits hrdest hrfits (fits_of_wfImmediate hv) (.inl hrmem)⟩
  | @immAcc _ w _ _ hv =>
    obtain ⟨hfits, hdest, hmem⟩ := fits_accumulator w
    exact ⟨_, _, rfl, rfl, validPair_of_fits hdest hfits (fits_of_wfImmediate hv) (.inl hmem)⟩
  | @memToAcc w a =>
    obtain ⟨hfits, hdest, hmem⟩ := fits_accumulator w
    exact ⟨_, _, rfl, rfl, validPair_of_fits hdest hfits rfl (.inl hmem)⟩
  | @accToMem w a =>
    obtain ⟨hfits, -, hmem⟩ := fits_accumulator w
    exact ⟨_, _, rfl, rfl, validPair_of_fits rfl rfl hfits (.inr hmem)⟩
  | rel8 hrel => exact absurd hrel hop.1
  | hlt => exact absurd rfl hop.2

theorem hasOffset_of_shape {tag : OperationTag} {f : Fields} (h : Shape tag f) (hrel : tag.format = .rel8) :
    ∃ k, HasOffset f k := by
  cases h with
  | @rel8 _ k => exact ⟨k, rfl, rfl⟩
  | rmReg htag | immRm htag | immAcc htag => cases htag.symm.trans hrel
  | movImmRm | immReg | memToAcc | accToMem | hlt => cases hrel

theorem not_operand_cause_of_decode {window : List Byte} {i : Instr} {s : State} (h : decode window = some i) :
    ¬Cause i s .operand := by
  have hshape := (reads_of_decode h).1
  rintro (_ | ⟨hop, -, hbad⟩ | _ | ⟨hop, -, hbad⟩)
  · obtain ⟨d, src, hpair⟩ := hasPair_of_shape hshape hop
    exact hbad d src hpair
  · obtain ⟨k, hoffset⟩ := hasOffset_of_shape hshape hop
    exact hbad k hoffset

/-! ### STATUS after an instruction -/

/-- From a running machine: HALTED for `hlt`, a fault with its cause, or RUNNING. -/
theorem status_of_outcome {i : Instr} {s t : State} (hs : s.status = .running) (h : Outcome i s t) :
    (i.operation = .hlt ∧ t.status = .halted) ∨ (∃ e, Cause i s e ∧ t.status = abortStatus e) ∨
      (i.operation ≠ .hlt ∧ t.status = .running) := by
  cases h with
  | halts hop => exact .inl ⟨hop, rfl⟩
  | @raises e hcause => exact .inr (.inl ⟨e, hcause, rfl⟩)
  | commits hcommit => exact .inr (.inr ⟨commit_not_hlt hcommit, (commit_status hcommit).trans hs⟩)

theorem abortStatus_not_fault (e : Abort) : abortStatus e ≠ .running ∧ abortStatus e ≠ .halted ∧
    abortStatus e ≠ .stoppedUndecodable ∧ abortStatus e ≠ .loadRefused := by
  cases e <;> simp [abortStatus]

theorem abortStatus_injective {e e' : Abort} (h : abortStatus e = abortStatus e') : e = e' := by
  cases e <;> cases e' <;> simp_all [abortStatus]

section
variable {i : Instr} {s t : State} (hs : s.status = .running) (h : Outcome i s t)
include hs h

theorem cause_of_fault {e : Abort} (he : t.status = abortStatus e) : Cause i s e := by
  obtain ⟨hrunning, hhalted, -, -⟩ := abortStatus_not_fault e
  obtain ⟨-, ht⟩ | ⟨e', hcause, ht⟩ | ⟨-, ht⟩ := status_of_outcome hs h
  · exact absurd (he.symm.trans ht) hhalted
  · exact abortStatus_injective (ht.symm.trans he) ▸ hcause
  · exact absurd (he.symm.trans ht) hrunning

theorem halted_iff : t.status = .halted ↔ i.operation = .hlt := by
  obtain ⟨hop, ht⟩ | ⟨e, hcause, ht⟩ | ⟨hop, ht⟩ := status_of_outcome hs h
  · exact iff_of_true ht hop
  · obtain ⟨-, hhalted, -, -⟩ := abortStatus_not_fault e
    exact iff_of_false (fun hhalt => hhalted (ht.symm.trans hhalt)) (cause_not_hlt hcause)
  · exact iff_of_false (fun hhalt => by cases ht.symm.trans hhalt) hop

theorem status_of_instruction : t.status ≠ .stoppedUndecodable ∧ t.status ≠ .loadRefused := by
  obtain ⟨-, ht⟩ | ⟨e, -, ht⟩ | ⟨-, ht⟩ := status_of_outcome hs h <;> rw [ht]
  · decide
  · obtain ⟨-, -, hundecodable, hrefused⟩ := abortStatus_not_fault e
    exact ⟨hundecodable, hrefused⟩
  · decide

end

/-- Settles O16: an operand fault would have a cause, and a decoded record gives it none. -/
theorem decodedRecordsNeverOperandFault : Obligations.DecodedRecordsNeverOperandFault := by
  intro window i s t hdecode hs h hfault
  exact not_operand_cause_of_decode hdecode (cause_of_fault hs (outcome_of_exec h) (e := .operand) hfault)

/-! ### The causes that `Obligations.StatusIsSetByItsCause` names -/

theorem unwired_of_cause {i : Instr} {s : State} {op : OperationTag} (h : Cause i s (.unimplemented op)) :
    i.operation = op ∧ isWired s.wired op = false := by
  cases h with
  | unwired _ _ _ hwired => exact ⟨rfl, hwired⟩

/-- The three causes of a BoundsFault. -/
theorem bounds_of_cause {i : Instr} {s : State} {a : Int} (h : Cause i s (.bounds a)) :
    (¬NextInRange i.fields s ∧ a = ((s.ip.toNat + i.size : Nat) : Int)) ∨
      (∃ ea, (i.fields.dst = some (.memory ea) ∨ i.fields.src = some (.memory ea)) ∧
        inBounds (effectiveAddress s.regs ea) i.fields.flags.wide = false ∧ a = effectiveAddress s.regs ea) ∨
      ∃ k, HasOffset i.fields k ∧ isWired s.wired i.operation = true ∧ branchTaken s i.operation = true ∧
        ¬TargetInRange i.fields k s ∧ a = branchTarget i.fields k s := by
  cases h with
  | pastTop _ htop => exact .inl ⟨htop, rfl⟩
  | @outOfBounds d src ea _ hpair _ hea hout =>
    obtain ⟨hdst, hsrc, -⟩ := hpair
    have hslot := hea.imp (fun h => hdst.trans (congrArg some h)) (fun h => hsrc.trans (congrArg some h))
    exact .inr (.inl ⟨ea, hslot, hout, rfl⟩)
  | @targetOut k hoffset _ hwired htaken hout => exact .inr (.inr ⟨k, hoffset, hwired, htaken, hout, rfl⟩)

theorem exists_hlt_iff (i : Instr) : (∃ f, some i = some (.hlt f)) ↔ i.operation = .hlt := by
  constructor
  · rintro ⟨f, hf⟩
    cases hf
    rfl
  · intro hop
    cases i <;> cases hop
    exact ⟨_, rfl⟩

/-- Settles O21: a decode failure stops the machine as one; of a decoded record, the end of its execution says which STATUS it
leaves and why. -/
theorem statusIsSetByItsCause : Obligations.StatusIsSetByItsCause := by
  intro s t hs h
  obtain ⟨hstopped, -⟩ | ⟨-, hnone, rfl⟩ | ⟨i, -, hi, houtcome⟩ := step_cases h
  · exact absurd hs hstopped
  · simp [hnone]
  obtain ⟨hundecodable, hrefused⟩ := status_of_instruction hs houtcome
  rw [hi]
  refine ⟨(halted_iff hs houtcome).trans (exists_hlt_iff i).symm, iff_of_false hundecodable (Option.some_ne_none i),
    fun op hop => ?unimplemented, fun a ha => ?bounds, fun ht => ?operand, hrefused⟩
  case unimplemented => exact ⟨i, rfl, unwired_of_cause (cause_of_fault hs houtcome (e := .unimplemented op) hop)⟩
  case bounds =>
    have hcause := cause_of_fault hs houtcome (e := .bounds a) ha
    exact ⟨i, rfl, cause_not_hlt hcause, bounds_of_cause hcause⟩
  case operand => exact not_operand_cause_of_decode hi (cause_of_fault hs houtcome (e := .operand) ht)

end Sys2Proof.Proofs.Causes
end

section
/-! SUPPORT. Text and what the host sees of a run (47_formatter.md section 2, 48_interfaces.md). -/

namespace Sys2Proof.Proofs.Interface

open Sys2Proof Sys2Proof.Machine Sys2Proof.Proofs.Steps

/-! ### Texts -/

theorem dispText_of_zero {d : Word} (h : d.toInt = 0) : dispText d = "" :=
  if_pos h

theorem dispText_of_pos {d : Word} {n : Nat} (hn : 0 < n) (h : d.toInt = n) : dispText d = " + " ++ toString n := by
  rw [dispText, h, if_neg (by omega), if_pos (by omega), Int.toNat_natCast, decText]

theorem dispText_of_neg {d : Word} {n : Nat} (hn : 0 < n) (h : d.toInt = -(n : Int)) :
    dispText d = " - " ++ toString n := by
  rw [dispText, h, if_neg (by omega), if_neg (by omega), neg_neg, Int.toNat_natCast, decText]

/-- Settles O56: by the sign of the value, which is in the range of a word. -/
theorem displacementTextRule : Obligations.DisplacementTextRule := by
  refine ⟨fun d => dispText_of_zero, fun n hpos hlt => dispText_of_pos hpos ?_, fun n hpos hle => dispText_of_neg hpos ?_⟩
  · rw [BitVec.toInt_eq_toNat_bmod, BitVec.toNat_ofNat, Nat.mod_eq_of_lt (by omega)]
    exact Int.bmod_eq_of_le (by omega) (by omega)
  · rw [BitVec.toInt_ofInt]
    exact Int.bmod_eq_of_le (by omega) (by omega)

/-- Settles O58: each string is computed. -/
theorem workedTexts : Obligations.WorkedTexts := by
  refine ⟨?_, ?_, ?_, ?_, ?_, ?_, ?_⟩ <;> rfl

/-! ### Trace and report -/

/-- Settles O59: the trace asks for exactly the four conditions, of the state that the step answers. -/
theorem traceOnlyOfExecutedSteps : Obligations.TraceOnlyOfExecutedSteps := by
  intro s line
  constructor
  · intro h
    obtain ⟨t, ht⟩ := everyStepAnswers.2 s
    rw [stepTrace, stepState_of_step ht] at h
    by_cases hs : s.status = .running
    · rw [if_pos hs] at h
      cases hi : fetchDecode s with
      | none => rw [hi] at h; cases h
      | some i =>
        rw [hi] at h
        obtain ⟨hrunning, hline⟩ := Option.ite_none_right_eq_some.mp h
        exact ⟨i, t, hs, rfl, ht, hrunning, (Option.some.inj hline).symm⟩
    · rw [if_neg hs] at h
      cases h
  · rintro ⟨i, t, hs, hi, ht, hrunning, rfl⟩
    rw [stepTrace, stepState_of_step ht, if_pos hs, hi]
    exact if_pos hrunning

theorem isReported_iff (s : State) : isReported s = true ↔ s.status = .halted ∨ s.status = .stoppedUndecodable := by
  simp [isReported]

/-- Settles O60: by whether STATUS is one that the host gets to see, and whether the report starts with the notice. -/
theorem onlyEndedRunsAreReported : Obligations.OnlyEndedRunsAreReported := by
  intro s
  refine ⟨fun h => ?halted, fun h => ?undecodable, fun h => ?unseen⟩
  case halted =>
    have hseen := (isReported_iff s).mpr (.inl h)
    exact ⟨if_pos hseen, by rw [report, if_pos hseen, if_neg (by rw [h]; decide)]; rfl⟩
  case undecodable =>
    have hseen := (isReported_iff s).mpr (.inr h)
    exact ⟨if_pos hseen, by rw [report, if_pos hseen, if_pos h]; rfl⟩
  case unseen =>
    have hunseen : ¬isReported s = true := by
      rw [isReported_iff]
      rintro (hs | hs) <;> rcases h with h | ⟨hlo, -⟩ | h <;> simp_all [statusCode]
    exact ⟨if_neg hunseen, if_neg hunseen⟩

end Sys2Proof.Proofs.Interface
end
